-- ==== Sys2Proof/Word.lean ====
section
/-! DEFINITION. The word types of the MT19937 RNG block: 32-bit words (R2, R11), 64-bit commands and data (R62, R80, R86),
and the state word file (R31). Bit 0 is the least significant bit of every one of them (R10, R60). -/

namespace Sys2Proof

/-- A 32-bit word; arithmetic on it is modulo 2^32 and shifts are logical (R11). -/
abbrev Word := BitVec 32

/-- A command word, the 64 bits one transfer on the command port carries (R80). -/
abbrev Command := BitVec 64

/-- The DATA field of a response, 64 bits (R86). -/
abbrev Data := BitVec 64

/-- The state word file `mt`: 624 words, `mt[0]` to `mt[623]` (R31). -/
abbrev StateWords := Vector Word 624

end Sys2Proof
end

