-- ==== Sys2Proof/Config.lean ====
section
/-! DEFINITION. What is fixed for the machine: the option parameter of R9 and the algorithm's constants of R7 and R8.
The two counts N = 624 and M = 397 of R7 stand as numerals where they index the state word file.
`LATENCY` and `BUS_ENDIAN` of R9 are OPEN, no rule depends on them, and they are not modelled (log entries 16 and 17). -/

namespace Sys2Proof

/-- The parameters a model of the block takes (R9): whether the EXT accessors of R3 are present. -/
structure Config where
  extAccessors : Bool
  deriving DecidableEq, Repr

namespace Config

/-- This hardware, `MT19937-RNG+EXT`: `EXT_ACCESSORS` is true (R9). -/
def hardware : Config := ⟨true⟩

/-- The block without the option set EXT, `MT19937-RNG` (R3, R9). -/
def coreOnly : Config := ⟨false⟩

/-- `DEFAULT_SEED` = 5489 (R8). -/
def defaultSeed : Word := 5489#32

/-- The twist matrix coefficient A (R7). -/
def twistCoefficient : Word := 0x9908B0DF#32

/-- UPPER_MASK, bit 31 (R7). -/
def upperMask : Word := 0x80000000#32

/-- LOWER_MASK, bits 30..0 (R7). -/
def lowerMask : Word := 0x7FFFFFFF#32

/-- The tempering mask D (R7). -/
def temperMaskD : Word := 0xFFFFFFFF#32

/-- The tempering mask B (R7). -/
def temperMaskB : Word := 0x9D2C5680#32

/-- The tempering mask C (R7). -/
def temperMaskC : Word := 0xEFC60000#32

/-- The seeding multiplier F (R7). -/
def seedMultiplier : Word := 1812433253#32

end Config

end Sys2Proof
end

