-- ==== Sys2Proof/Syntax.lean ====
section
/-! DEFINITION. The ten commands of the block, one constructor for each row of the opcode table (R84). -/

namespace Sys2Proof

/-- The commands (R84). Only SEED has an operand, its 32-bit seed (R83). -/
inductive Instr where
  /-- SEED: construct the generator from a seed (R110). -/
  | seed (s : Word)
  /-- NEXT.U32: the raw draw (R138). -/
  | nextU32
  /-- NEXT.I31: the raw draw shifted right by one bit (R160). -/
  | nextI31
  /-- NEXT.DC: a binary64 in [0, 1] (R170). -/
  | nextDc
  /-- NEXT.DLC: a binary64 in [0, 1) (R173), EXT. -/
  | nextDlc
  /-- NEXT.DO: a binary64 in (0, 1) (R174), EXT. -/
  | nextDo
  /-- NEXT.FC: a binary32 in [0, 1] (R190), EXT. -/
  | nextFc
  /-- NEXT.FLC: a binary32 in [0, 1] (R191), EXT. -/
  | nextFlc
  /-- NEXT.FO: a binary32 in (0, 1] (R192), EXT. -/
  | nextFo
  /-- NEXT.BOOL: the XOR fold of the raw draw (R210), EXT. -/
  | nextBool
  deriving DecidableEq, Repr

namespace Instr

/-- The command belongs to the option set EXT (R3, R84). -/
def isExt : Instr → Bool
  | .seed _ => false
  | .nextU32 => false
  | .nextI31 => false
  | .nextDc => false
  | .nextDlc => true
  | .nextDo => true
  | .nextFc => true
  | .nextFlc => true
  | .nextFo => true
  | .nextBool => true

/-- The command is one of the nine accessors, the NEXT.* commands (R15, R84). -/
def isAccessor : Instr → Bool
  | .seed _ => false
  | .nextU32 => true
  | .nextI31 => true
  | .nextDc => true
  | .nextDlc => true
  | .nextDo => true
  | .nextFc => true
  | .nextFlc => true
  | .nextFo => true
  | .nextBool => true

/-- The mnemonic of the opcode table (R84, R92). -/
def mnemonic : Instr → String
  | .seed _ => "SEED"
  | .nextU32 => "NEXT.U32"
  | .nextI31 => "NEXT.I31"
  | .nextDc => "NEXT.DC"
  | .nextDlc => "NEXT.DLC"
  | .nextDo => "NEXT.DO"
  | .nextFc => "NEXT.FC"
  | .nextFlc => "NEXT.FLC"
  | .nextFo => "NEXT.FO"
  | .nextBool => "NEXT.BOOL"

end Instr

end Sys2Proof
end

