-- ==== Sys2Proof/WellFormed.lean ====
section
/-! DEFINITION. Which commands a configuration of the block has. The one check is the option set (R3, R9):
the seed operand is 32 bits by its type and every value of it is legal (R83), and no other command has an operand. -/

namespace Sys2Proof

/-- The configuration has the command: it is core, or the EXT accessors are present (R3, R9, R90 item 3). -/
def WellFormed (cfg : Config) (i : Instr) : Bool :=
  !i.isExt || cfg.extAccessors

end Sys2Proof
end

