-- ==== Sys2Proof/Decode.lean ====
section
/-! DEFINITION. The command word: its fields (R80, R81, R83), the total decoder (R85), the encoder written from the same
assignment (R84), and the opcode table with its match and mask values (R84). -/

namespace Sys2Proof

/-- OP, bits 7..0 (R80). -/
def opField (cmd : Command) : BitVec 8 := cmd.extractLsb' 0 8

/-- RSV, bits 31..8 (R80). -/
def rsvField (cmd : Command) : BitVec 24 := cmd.extractLsb' 8 24

/-- ARG, bits 63..32: the seed operand of SEED, taken as it is (R80, R83). -/
def argField (cmd : Command) : Word := cmd.extractLsb' 32 32

/-- The command word with the given fields: ARG in bits 63..32, RSV in 31..8, OP in 7..0 (R80). -/
def commandWord (arg : Word) (rsv : BitVec 24) (op : BitVec 8) : Command :=
  (arg.setWidth 64 <<< 32) ||| (rsv.setWidth 64 <<< 8) ||| op.setWidth 64

/-- Why a command word is illegal: the four conditions of R90. The block answers each with the same response (R90, R223). -/
inductive IllegalCause where
  /-- RSV ≠ 0 (R90 item 1). -/
  | reservedNonzero
  /-- OP is not in the table (R90 item 2). -/
  | unknownOp
  /-- OP is an EXT opcode and the EXT accessors are absent (R90 item 3). -/
  | extAbsent
  /-- OP ≠ 0x01 and ARG ≠ 0 (R90 item 4). -/
  | argNonzero
  deriving DecidableEq, Repr

/-- What the decoder answers (R85): a command, or Illegal under the name of its first cause. -/
inductive Decoded where
  | legal (i : Instr)
  | illegal (why : IllegalCause)
  deriving DecidableEq, Repr

/-- The command of an EXT opcode, or Illegal where the option set is absent (R85). -/
def decodeExt (cfg : Config) (i : Instr) : Decoded :=
  if cfg.extAccessors then .legal i else .illegal .extAbsent

/-- The `case op` of R85, reached when RSV = 0, OP ≠ 0x01 and ARG = 0. -/
def decodeAccessor (cfg : Config) (op : BitVec 8) : Decoded :=
  if op = 0x10#8 then .legal .nextU32
  else if op = 0x11#8 then .legal .nextI31
  else if op = 0x12#8 then .legal .nextDc
  else if op = 0x13#8 then decodeExt cfg .nextDlc
  else if op = 0x14#8 then decodeExt cfg .nextDo
  else if op = 0x18#8 then decodeExt cfg .nextFc
  else if op = 0x19#8 then decodeExt cfg .nextFlc
  else if op = 0x1A#8 then decodeExt cfg .nextFo
  else if op = 0x1C#8 then decodeExt cfg .nextBool
  else .illegal .unknownOp

/-- The decoding function, total on every 64-bit word (R85). -/
def decodeWith (cfg : Config) (cmd : Command) : Decoded :=
  if rsvField cmd ≠ 0#24 then .illegal .reservedNonzero
  else if opField cmd = 0x01#8 then .legal (.seed (argField cmd))
  else if argField cmd ≠ 0#32 then .illegal .argNonzero
  else decodeAccessor cfg (opField cmd)

/-- The decoder of this hardware (R9, R85). -/
def decode (cmd : Command) : Decoded := decodeWith Config.hardware cmd

/-- OP of a command (R84). -/
def opcode : Instr → BitVec 8
  | .seed _ => 0x01#8
  | .nextU32 => 0x10#8
  | .nextI31 => 0x11#8
  | .nextDc => 0x12#8
  | .nextDlc => 0x13#8
  | .nextDo => 0x14#8
  | .nextFc => 0x18#8
  | .nextFlc => 0x19#8
  | .nextFo => 0x1A#8
  | .nextBool => 0x1C#8

/-- ARG of a command: the seed of SEED, 0 for every other command (R80, R83). -/
def operand : Instr → Word
  | .seed s => s
  | .nextU32 => 0#32
  | .nextI31 => 0#32
  | .nextDc => 0#32
  | .nextDlc => 0#32
  | .nextDo => 0#32
  | .nextFc => 0#32
  | .nextFlc => 0#32
  | .nextFo => 0#32
  | .nextBool => 0#32

/-- The command word of a command: OP and ARG as R84 gives them, RSV = 0 (R80). -/
def encode (i : Instr) : Command := commandWord (operand i) 0#24 (opcode i)

/-- One row of the opcode table (R84): the match and mask values, and the row's option. -/
structure OpcodeRow where
  mnemonic : String
  bitsMatch : Command
  bitsMask : Command
  ext : Bool
  deriving DecidableEq, Repr

/-- The opcode table with the full match and mask values R84 gives. -/
def opcodeTable : List OpcodeRow :=
  [ ⟨"SEED", 0x0000000000000001#64, 0x00000000FFFFFFFF#64, false⟩,
    ⟨"NEXT.U32", 0x0000000000000010#64, 0xFFFFFFFFFFFFFFFF#64, false⟩,
    ⟨"NEXT.I31", 0x0000000000000011#64, 0xFFFFFFFFFFFFFFFF#64, false⟩,
    ⟨"NEXT.DC", 0x0000000000000012#64, 0xFFFFFFFFFFFFFFFF#64, false⟩,
    ⟨"NEXT.DLC", 0x0000000000000013#64, 0xFFFFFFFFFFFFFFFF#64, true⟩,
    ⟨"NEXT.DO", 0x0000000000000014#64, 0xFFFFFFFFFFFFFFFF#64, true⟩,
    ⟨"NEXT.FC", 0x0000000000000018#64, 0xFFFFFFFFFFFFFFFF#64, true⟩,
    ⟨"NEXT.FLC", 0x0000000000000019#64, 0xFFFFFFFFFFFFFFFF#64, true⟩,
    ⟨"NEXT.FO", 0x000000000000001A#64, 0xFFFFFFFFFFFFFFFF#64, true⟩,
    ⟨"NEXT.BOOL", 0x000000000000001C#64, 0xFFFFFFFFFFFFFFFF#64, true⟩ ]

/-- The row's condition on a command word: `(cmd & mask) == match`, and the row's option is present (R84). -/
def OpcodeRow.accepts (row : OpcodeRow) (cfg : Config) (cmd : Command) : Bool :=
  decide (cmd &&& row.bitsMask = row.bitsMatch) && (!row.ext || cfg.extAccessors)

/-- The command word that a table row's bits stand for: one 64-bit word, bit 0 its least significant bit,
every bit above the row's `nbits` being 0 (R10, R80; log entry 9). -/
def tableCommand (nbits w : Nat) : Command := BitVec.ofNat 64 (w % 2 ^ nbits)

/-- The command this hardware's decoder reads from a table row's bits; none where the word is illegal (R85). -/
def decodeTableWord (nbits w : Nat) : Option Instr :=
  match decode (tableCommand nbits w) with
  | .legal i => some i
  | .illegal _ => none

end Sys2Proof
end

