-- ==== Sys2Proof/Machine/Twister.lean ====
section
/-! DEFINITION. The Mersenne Twister on plain words: seeding (R111), the twist (R133 to R135) and the tempering (R136).
These functions read and write no other state of the block. -/

namespace Sys2Proof.Machine

/-- Word `i` of `Init(s)` (R111): word 0 is the seed, and each later word uses the one before it. -/
def initWord (s : Word) : Nat → Word
  | 0 => s
  | i + 1 =>
    let previous := initWord s i
    Config.seedMultiplier * (previous ^^^ (previous >>> 30)) + BitVec.ofNat 32 (i + 1)

/-- The 624 words of `Init(s)` (R111). Irreducible, so that no proof unfolds 624 words by accident. -/
@[irreducible] def initWords (s : Word) : StateWords := ⟨⟨(List.range 624).map (initWord s)⟩, by simp⟩

/-- The state word at an index taken modulo 624, as the twist addresses it (R134, R135). -/
def wordAt (mt : StateWords) (i : Nat) : Word := mt[i % 624]'(Nat.mod_lt i (by decide))

/-- The twist transform of one word (R133). -/
def twistA (x : Word) : Word :=
  if x.getLsbD 0 = false then x >>> 1 else (x >>> 1) ^^^ Config.twistCoefficient

/-- The mix of two words that the twist transforms: bit 31 of the first and bits 30..0 of the second (R135). -/
def mixWords (upper lower : Word) : Word := (upper &&& Config.upperMask) ||| (lower &&& Config.lowerMask)

/-- Step `i` of the twist, in place: it reads the words as they stand at that moment (R134, R135). -/
def twistStep (i : Nat) (mt : StateWords) : StateWords :=
  mt.set (i % 624) (wordAt mt (i + 397) ^^^ twistA (mixWords (wordAt mt i) (wordAt mt (i + 1))))
    (Nat.mod_lt i (by decide))

/-- The first `k` steps of the twist, in ascending index order (R134, R135). -/
def twistUpTo : Nat → StateWords → StateWords
  | 0, mt => mt
  | k + 1, mt => twistStep k (twistUpTo k mt)

/-- The twist: steps 0 to 623 (R135). Irreducible, so that no proof unfolds 624 steps by accident. -/
@[irreducible] def twist (mt : StateWords) : StateWords := twistUpTo 624 mt

/-- The tempering (R136); each line uses the `y` the line before it produced. -/
def temper (y : Word) : Word :=
  let y := y ^^^ ((y >>> 11) &&& Config.temperMaskD)
  let y := y ^^^ ((y <<< 7) &&& Config.temperMaskB)
  let y := y ^^^ ((y <<< 15) &&& Config.temperMaskC)
  y ^^^ (y >>> 18)

/-- The state words after `t` twists of `Init(s)` (R139). -/
def twistedWords (s : Word) : Nat → StateWords
  | 0 => initWords s
  | t + 1 => twist (twistedWords s t)

/-- The sequence `x` of R139, read off the state: `x_{624*t + i}` is word `i` after `t` twists. -/
def streamWord (s : Word) (n : Nat) : Word := wordAt (twistedWords s (n / 624)) (n % 624)

/-- The `k`-th raw draw of a seed, counted from 1: `Temper(x_{623+k})` (R139). -/
def rawDraw (s : Word) (k : Nat) : Word := temper (streamWord s (623 + k))

end Sys2Proof.Machine
end

