-- ==== Sys2Proof/Machine/State.lean ====
section
/-! DEFINITION. The state of one block: the state words, the index and the ghost counter (R30, R31, R32, R38), and the
model's own record of the two ports (R80, R86, R232; log entries 1 and 2); its reset value (R40, R250); and the reasons a
step can stop. -/

namespace Sys2Proof.Machine

/-- One thing the host side does to the block: the interactions of R232, and a transfer that is no command (R61). -/
inductive Input where
  /-- A 64-bit command word on the command port (R80). -/
  | command (w : Command)
  /-- The reset signal between two commands (R250). -/
  | reset
  /-- The reset signal with a command, or while the command is in progress and has not responded (R223, R252). -/
  | resetDuring (w : Command)
  /-- Power lost and power-up, which is a reset (R231; log entry 6). -/
  | powerCycle
  /-- A transfer of fewer than 64 bits, which is not a command (R61). -/
  | partialTransfer (width : Fin 64) (bits : Nat)
  deriving DecidableEq, Repr

/-- The response to one command (R86): ERR and DATA. -/
structure Response where
  err : BitVec 1
  data : Data
  deriving DecidableEq, Repr

/-- The state of one block. -/
structure State where
  /-- The state word file (R31). -/
  mt : StateWords
  /-- The index register, 0 to 624 (R32). -/
  idx : Fin 625
  /-- The ghost counter of raw draws since the last seeding (R38). No rule's outcome depends on it. -/
  draws : Nat
  /-- The model's own: what the host presents and the block has not accepted, in the order of acceptance (R67; log entry 1). -/
  inbox : List Input
  /-- The model's own: the responses delivered to the host, oldest first (R86; log entry 2). -/
  responses : List Response
  deriving DecidableEq, Repr

/-- The reset state (R40, R250): the state after seeding with 5489, the host having presented nothing yet. -/
def State.reset : State :=
  { mt := initWords Config.defaultSeed, idx := 624, draws := 0, inbox := [], responses := [] }

/-- Why the machine stops with a fault: never. No legal command raises an exception (R220) and an illegal one is answered by
a response (R221), so this type has no constructor. Safe: nothing is left out by it (log entry 14). -/
inductive Fault
  deriving DecidableEq, Repr

/-- Why a step has no next state. -/
inductive Refusal where
  /-- Raised by `exec` for a command that has no meaning yet. No arm of this model raises it. Safe. -/
  | notModelled (mnemonic : String)
  /-- Raised by `step` for a transfer of fewer than 64 bits: the model has no step and gives no response (R61). Safe. -/
  | partialTransfer
  deriving DecidableEq, Repr

end Sys2Proof.Machine
end

