-- ==== Sys2Proof/Machine/Flags.lean ====
section
/-! DEFINITION. The block has no flags (R35, R175). The one status bit is ERR, part of a response alone (R35, R86). -/

namespace Sys2Proof.Machine

/-- ERR of a command that was legal and executed (R86). -/
def errOk : BitVec 1 := 0#1

/-- ERR of an illegal command (R86, R221). -/
def errIllegal : BitVec 1 := 1#1

end Sys2Proof.Machine
end

