-- ==== Sys2Proof/Machine/Ieee.lean ====
section
/-! DEFINITION. The floating-point primitives of R14 in the environment of R175: exact values, rounding to nearest with ties
to even, and the encodings of binary64 and binary32. Only values that are not negative occur (R175), so a datum has no sign.
The parts no command reaches (gradual underflow, overflow to infinity) follow IEEE 754 itself (log entry 10). -/

namespace Sys2Proof.Machine

/-- An exact real `num / den * 2 ^ exp`, the type of `real(v)` and of products and sums before rounding (R14). -/
structure Exact where
  num : Nat
  den : Nat
  exp : Int
  deriving DecidableEq, Repr

namespace Exact

/-- The exact value of an integer (R14). -/
def ofNat (n : Nat) : Exact := ⟨n, 1, 0⟩

/-- The exact quotient of two integers. -/
def quotient (n d : Nat) : Exact := ⟨n, d, 0⟩

/-- The real 0.5. -/
def half : Exact := ⟨1, 1, -1⟩

/-- The exact product. -/
def mul (a b : Exact) : Exact := ⟨a.num * b.num, a.den * b.den, a.exp + b.exp⟩

/-- The exact sum. -/
def add (a b : Exact) : Exact :=
  let e := min a.exp b.exp
  ⟨a.num * b.den * 2 ^ (a.exp - e).toNat + b.num * a.den * 2 ^ (b.exp - e).toNat, a.den * b.den, e⟩

/-- The value as a rational number. -/
def toRat (x : Exact) : ℚ := (x.num : ℚ) / (x.den : ℚ) * (2 : ℚ) ^ x.exp

/-- Numerator and denominator of the value times `2 ^ k`. -/
def scaled (x : Exact) (k : Int) : Nat × Nat :=
  (x.num * 2 ^ (x.exp + k).toNat, x.den * 2 ^ (-(x.exp + k)).toNat)

/-- The exponent `e` with `2 ^ e ≤ x < 2 ^ (e + 1)`, for `x` above 0. -/
def floorLog2 (x : Exact) : Int :=
  let e : Int := (Nat.log2 x.num : Int) - (Nat.log2 x.den : Int) + x.exp
  if (x.scaled (-e)).2 ≤ (x.scaled (-e)).1 then e else e - 1

end Exact

/-- A finite datum that is not negative: `sig * 2 ^ exp`. -/
structure Datum where
  sig : Nat
  exp : Int
  deriving DecidableEq, Repr

/-- The exact value of a datum, `real(v)` (R14). -/
def Datum.real (d : Datum) : Exact := ⟨d.sig, 1, d.exp⟩

/-- An IEEE 754 binary format: significand bits, exponent bits, exponent range and bias. -/
structure Format where
  prec : Nat
  expBits : Nat
  emin : Int
  emax : Int
  bias : Int
  deriving DecidableEq, Repr

/-- binary64: bias 1023, fraction in bits 51..0 (R14). -/
def binary64 : Format := ⟨53, 11, -1022, 1023, 1023⟩

/-- binary32: bias 127, fraction in bits 22..0 (R14). -/
def binary32 : Format := ⟨24, 8, -126, 127, 127⟩

/-- The integer nearest to `n / d`, ties to the even one (R14). -/
def roundQuotient (n d : Nat) : Nat :=
  if 2 * (n % d) < d then n / d
  else if d < 2 * (n % d) then n / d + 1
  else n / d + (n / d) % 2

namespace Format

/-- The exponent of the unit in the last place at the exact value `x` above 0. -/
def ulpExponent (f : Format) (x : Exact) : Int := max x.floorLog2 f.emin - ((f.prec : Int) - 1)

/-- Rounding to the nearest datum of the format, ties to the even significand (R14, R175). -/
def round (f : Format) (x : Exact) : Datum :=
  if x.num = 0 then ⟨0, 0⟩
  else
    let k := f.ulpExponent x
    let r := x.scaled (-k)
    ⟨roundQuotient r.1 r.2, k⟩

/-- The encoding of a datum: biased exponent above the fraction, sign bit 0 (R14). -/
def encode (f : Format) (d : Datum) : Nat :=
  if d.sig = 0 then 0
  else
    let e : Int := (Nat.log2 d.sig : Int) + d.exp
    let hidden := 2 ^ (f.prec - 1)
    if f.emax < e then (2 ^ f.expBits - 1) * hidden
    else if e < f.emin then
      let k := d.exp - (f.emin - ((f.prec : Int) - 1))
      d.sig * 2 ^ k.toNat / 2 ^ (-k).toNat
    else (e + f.bias).toNat * hidden + (d.sig * hidden / 2 ^ Nat.log2 d.sig - hidden)

/-- The sign bit of an encoding. -/
def signOf (f : Format) (b : Nat) : Nat := b / 2 ^ (f.prec - 1 + f.expBits) % 2

/-- The biased exponent of an encoding. -/
def exponentOf (f : Format) (b : Nat) : Nat := b / 2 ^ (f.prec - 1) % 2 ^ f.expBits

/-- The fraction of an encoding. -/
def fractionOf (f : Format) (b : Nat) : Nat := b % 2 ^ (f.prec - 1)

/-- The value an encoding stands for; none for an infinity or a NaN (R14). -/
def value (f : Format) (b : Nat) : Option ℚ :=
  if f.exponentOf b = 2 ^ f.expBits - 1 then none
  else
    let sign : ℚ := if f.signOf b = 1 then -1 else 1
    if f.exponentOf b = 0 then
      some (sign * (f.fractionOf b : ℚ) * (2 : ℚ) ^ (f.emin - ((f.prec : Int) - 1)))
    else
      some (sign * ((2 ^ (f.prec - 1) + f.fractionOf b : Nat) : ℚ)
        * (2 : ℚ) ^ ((f.exponentOf b : Int) - f.bias - ((f.prec : Int) - 1)))

end Format

/-- `RN64` (R14). -/
def rn64 (x : Exact) : Datum := binary64.round x

/-- `RN32` (R14). -/
def rn32 (x : Exact) : Datum := binary32.round x

/-- `f64bits` (R14). -/
def f64bits (d : Datum) : BitVec 64 := BitVec.ofNat 64 (binary64.encode d)

/-- `f32bits` (R14). -/
def f32bits (d : Datum) : BitVec 32 := BitVec.ofNat 32 (binary32.encode d)

/-- The real value of a binary64 encoding; none for an infinity or a NaN (R14). -/
def value64 (b : BitVec 64) : Option ℚ := binary64.value b.toNat

/-- The real value of a binary32 encoding; none for an infinity or a NaN (R14). -/
def value32 (b : BitVec 32) : Option ℚ := binary32.value b.toNat

end Sys2Proof.Machine
end

