-- ==== Sys2Proof/Machine/Operands.lean ====
section
/-! DEFINITION. The operand and result forms: how a raw draw is read as a real (R14), and how each result is placed in DATA
(R12, R87). The one command operand, the seed of SEED, is the field ARG (R83), read in Decode.lean. -/

namespace Sys2Proof.Machine

/-- `real(u(y))`, the exact value of a raw draw (R10, R14). -/
def realOfWord (y : Word) : Exact := Exact.ofNat y.toNat

/-- DATA of a command without a result (R87). -/
def dataNone : Data := 0#64

/-- DATA of a 32-bit integer result: `zext_64` (R12, R87). -/
def dataOfWord (y : Word) : Data := y.setWidth 64

/-- DATA of a binary64 result: `f64bits` (R87). -/
def dataOfDouble (d : Datum) : Data := f64bits d

/-- DATA of a binary32 result: `zext_64(f32bits)` (R12, R87). -/
def dataOfSingle (d : Datum) : Data := (f32bits d).setWidth 64

/-- DATA of a boolean result: 1 for true, 0 for false (R87). -/
def dataOfBool (b : Bool) : Data := if b then 1#64 else 0#64

end Sys2Proof.Machine
end

