-- ==== Sys2Proof/Machine/Ops.lean ====
section
/-! DEFINITION. The shared operations over the state: taking the next input, responding, seeding, reset, the raw draw,
the frame of an accessor, and taking the one exception, Illegal (R221). There is no return from it: the block has no trap
mechanism and nothing to restore (R224). -/

namespace Sys2Proof.Machine

/-- The outcome of a step of this block. -/
abbrev StepOutcome := Host.Outcome State Fault Refusal

namespace State

/-- The block takes the next input the host side presents, if there is one (R34, R67, R260). -/
def takeInput (s : State) : Option (Input × State) :=
  match s.inbox with
  | [] => none
  | x :: rest => some (x, { s with inbox := rest })

/-- The host side presents one more input, behind those already waiting (R67, R260). -/
def present (x : Input) (s : State) : State := { s with inbox := s.inbox ++ [x] }

/-- `respond(err, data)`: the response port delivers one response (R13, R86). -/
def respond (err : BitVec 1) (data : Data) (s : State) : State :=
  { s with responses := s.responses ++ [⟨err, data⟩] }

/-- Seeding: all 624 words and `idx` replaced, and the ghost counter restarted (R110, R111). -/
def seeded (seed : Word) (s : State) : State :=
  { s with mt := initWords seed, idx := 624, draws := 0 }

/-- Reset: seeding with 5489, and no response (R250). Inputs that wait and responses already delivered are the host's and
stay (R252; log entry 5). -/
def takeReset (s : State) : State := s.seeded Config.defaultSeed

/-- Power lost and power-up: the state is lost, and power-up is a reset (R231). -/
def takePowerCycle (s : State) : State := s.takeReset

/-- `raise Illegal(cmd)`, the one exception: ERR = 1, DATA = 0, nothing else changes (R221). It saves nothing, changes no mode
and sends control nowhere (R224). -/
def takeIllegal (s : State) : State := s.respond errIllegal dataNone

/-- The first part of `Draw()`: twist when `idx = 624` (R132, R137). -/
def refill (s : State) : State :=
  if s.idx.val = 624 then { s with mt := twist s.mt, idx := 0 } else s

/-- After `refill`, an untempered word remains (R137). -/
theorem refill_idx_lt (s : State) : s.refill.idx.val < 624 := by
  unfold refill
  split
  · exact Nat.zero_lt_succ 623
  · have := s.idx.isLt
    omega

/-- The state after `Draw()`: `idx` and the ghost counter each one further (R137). -/
def afterDraw (s : State) : State :=
  { s.refill with
    idx := ⟨s.refill.idx.val + 1, Nat.succ_lt_succ s.refill_idx_lt⟩
    draws := s.draws + 1 }

/-- The value `Draw()` returns: the tempered word at `idx` (R137). -/
def drawnWord (s : State) : Word := temper (s.refill.mt[s.refill.idx.val]'s.refill_idx_lt)

/-- `Draw()` (R137). -/
def draw (s : State) : Word × State := (s.drawnWord, s.afterDraw)

end State

/-- What every accessor does (R130, R131): one `Draw()`, a pure function of the drawn word, one response with ERR = 0. -/
def runAccessor (result : Word → Data) (s : State) : StepOutcome :=
  .next (s.draw.2.respond errOk (result s.draw.1))

/-- A transfer that is not a command: no step, no response (R61). -/
def refusePartialTransfer : StepOutcome := .refused .partialTransfer

end Sys2Proof.Machine
end

