-- ==== Sys2Proof/Machine/Boolean.lean ====
section
/-! DEFINITION. The boolean accessor NEXT.BOOL (R210). -/

namespace Sys2Proof.Machine

/-- One step of the XOR fold, a logical shift by `k` (R210). -/
def foldBy (k : Nat) (b : Word) : Word := b ^^^ (b >>> k)

/-- nextBool: the fold by 16, 8, 4, 2 and 1, and bit 0 of it (R210). -/
def xorFold (y : Word) : Bool :=
  (foldBy 1 (foldBy 2 (foldBy 4 (foldBy 8 (foldBy 16 y))))).getLsbD 0

/-- The result of nextBool (R210). -/
def resultBool (y : Word) : Data := dataOfBool (xorFold y)

/-- NEXT.BOOL (R210). -/
def execNextBool (s : State) : StepOutcome := runAccessor resultBool s

end Sys2Proof.Machine
end

