-- ==== Sys2Proof/Machine/DoublePrecision.lean ====
section
/-! DEFINITION. The double-precision accessors: NEXT.DC (R170, R171), NEXT.DLC (R173), NEXT.DO (R174), in the environment of
R175. -/

namespace Sys2Proof.Machine

/-- `C_DC`, the binary64 value nearest to 1/(2^32 - 1) (R171). -/
def scaleDc : Datum := rn64 (Exact.quotient 1 4294967295)

/-- `C_LC`, the binary64 value 1/(2^32) (R173). -/
def scaleDlc : Datum := rn64 (Exact.quotient 1 4294967296)

/-- nextDoubleClosed: one multiplication by `C_DC`, rounded once (R170). -/
def doubleClosed (y : Word) : Datum := rn64 ((realOfWord y).mul scaleDc.real)

/-- The result of nextDoubleClosed (R170). -/
def resultDc (y : Word) : Data := dataOfDouble (doubleClosed y)

/-- NEXT.DC (R170). -/
def execNextDc (s : State) : StepOutcome := runAccessor resultDc s

/-- nextDoubleLeftClosed (R173). -/
def doubleLeftClosed (y : Word) : Datum := rn64 ((realOfWord y).mul scaleDlc.real)

/-- The result of nextDoubleLeftClosed (R173). -/
def resultDlc (y : Word) : Data := dataOfDouble (doubleLeftClosed y)

/-- NEXT.DLC (R173). -/
def execNextDlc (s : State) : StepOutcome := runAccessor resultDlc s

/-- nextDoubleOpen: 0.5 added, then scaled (R174). -/
def doubleOpen (y : Word) : Datum :=
  let h := rn64 ((realOfWord y).add Exact.half)
  rn64 (h.real.mul scaleDlc.real)

/-- The result of nextDoubleOpen (R174). -/
def resultDo (y : Word) : Data := dataOfDouble (doubleOpen y)

/-- NEXT.DO (R174). -/
def execNextDo (s : State) : StepOutcome := runAccessor resultDo s

end Sys2Proof.Machine
end

