-- ==== Sys2Proof/Machine/Integer.lean ====
section
/-! DEFINITION. The integer accessors: NEXT.U32 (R138) and NEXT.I31 (R160). -/

namespace Sys2Proof.Machine

/-- The result of nextUInt32: the raw draw (R138). -/
def resultU32 (y : Word) : Data := dataOfWord y

/-- NEXT.U32 (R138). -/
def execNextU32 (s : State) : StepOutcome := runAccessor resultU32 s

/-- The result of nextInt31: a logical shift right by one (R160, conflict C1). -/
def resultI31 (y : Word) : Data := dataOfWord (y >>> 1)

/-- NEXT.I31 (R160). -/
def execNextI31 (s : State) : StepOutcome := runAccessor resultI31 s

end Sys2Proof.Machine
end

