-- ==== Sys2Proof/Machine/Seeding.lean ====
section
/-! DEFINITION. SEED (R110): seeding from the operand, at any time (R113). -/

namespace Sys2Proof.Machine

/-- SEED s (R110). -/
def execSeed (seed : Word) (s : State) : StepOutcome :=
  .next ((s.seeded seed).respond errOk dataNone)

end Sys2Proof.Machine
end

