-- ==== Sys2Proof/Machine/SinglePrecision.lean ====
section
/-! DEFINITION. The single-precision accessors: NEXT.FC (R190), NEXT.FLC (R191), NEXT.FO (R192). Every step is a binary32
operation with its own rounding: convert the draw, add 0.5 (NEXT.FO only), multiply by the constant of R193. -/

namespace Sys2Proof.Machine

/-- The constant of nextFloatClosed, the binary32 value nearest to 1/(2^32 - 1) (R193). -/
def scaleFc : Datum := rn32 (Exact.quotient 1 4294967295)

/-- The constant of nextFloatLeftClosed and nextFloatOpen, the binary32 value 1/(2^32) (R193). -/
def scaleFlc : Datum := rn32 (Exact.quotient 1 4294967296)

/-- The raw draw converted to binary32 (R190). -/
def singleOfWord (y : Word) : Datum := rn32 (realOfWord y)

/-- nextFloatClosed (R190). -/
def singleClosed (y : Word) : Datum := rn32 ((singleOfWord y).real.mul scaleFc.real)

/-- The result of nextFloatClosed (R190). -/
def resultFc (y : Word) : Data := dataOfSingle (singleClosed y)

/-- NEXT.FC (R190). -/
def execNextFc (s : State) : StepOutcome := runAccessor resultFc s

/-- nextFloatLeftClosed (R191). -/
def singleLeftClosed (y : Word) : Datum := rn32 ((singleOfWord y).real.mul scaleFlc.real)

/-- The result of nextFloatLeftClosed (R191). -/
def resultFlc (y : Word) : Data := dataOfSingle (singleLeftClosed y)

/-- NEXT.FLC (R191). -/
def execNextFlc (s : State) : StepOutcome := runAccessor resultFlc s

/-- nextFloatOpen: 0.5 added in binary32, then scaled (R192). -/
def singleOpen (y : Word) : Datum :=
  let g := rn32 ((singleOfWord y).real.add Exact.half)
  rn32 (g.real.mul scaleFlc.real)

/-- The result of nextFloatOpen (R192). -/
def resultFo (y : Word) : Data := dataOfSingle (singleOpen y)

/-- NEXT.FO (R192). -/
def execNextFo (s : State) : StepOutcome := runAccessor resultFo s

end Sys2Proof.Machine
end

