-- ==== Sys2Proof/Machine/Dispatch.lean ====
section
/-! DEFINITION. The rule of each command (R85 `Step`): one arm for each constructor of `Instr`. -/

namespace Sys2Proof.Machine

/-- What a decoded command does (R85). -/
def exec (i : Instr) (s : State) : Host.Outcome State Fault Refusal :=
  match i with
  | .seed x => Sys2Proof.Machine.execSeed x s
  | .nextU32 => Sys2Proof.Machine.execNextU32 s
  | .nextI31 => Sys2Proof.Machine.execNextI31 s
  | .nextDc => Sys2Proof.Machine.execNextDc s
  | .nextDlc => Sys2Proof.Machine.execNextDlc s
  | .nextDo => Sys2Proof.Machine.execNextDo s
  | .nextFc => Sys2Proof.Machine.execNextFc s
  | .nextFlc => Sys2Proof.Machine.execNextFlc s
  | .nextFo => Sys2Proof.Machine.execNextFo s
  | .nextBool => Sys2Proof.Machine.execNextBool s

end Sys2Proof.Machine
end

