-- ==== Sys2Proof/Machine/Step.lean ====
section
/-! DEFINITION. One step of the block: it takes the next input and carries it out as one atomic step (R63, R260). -/

namespace Sys2Proof.Machine

/-- `Step(state, cmd)` of R85: an illegal word raises Illegal, a legal one runs its command's rule. -/
def runCommand (cfg : Config) (w : Command) (s : State) : Host.Outcome State Fault Refusal :=
  match decodeWith cfg w with
  | .illegal _ => .next s.takeIllegal
  | .legal i => exec i s

/-- One input carried out. -/
def runInput (cfg : Config) (x : Input) (s : State) : Host.Outcome State Fault Refusal :=
  match x with
  | .command w => runCommand cfg w s
  | .reset => .next s.takeReset
  | .resetDuring _ => .next s.takeReset
  | .powerCycle => .next s.takePowerCycle
  | .partialTransfer _ _ => refusePartialTransfer

/-- One step of a block of a given configuration. Where the host presents nothing the block is idle and keeps its whole
state (R231). -/
def stepWith (cfg : Config) (s : State) : Host.Outcome State Fault Refusal :=
  match s.takeInput with
  | none => .next s
  | some (x, s') => runInput cfg x s'

/-- One step of this hardware. -/
def step (s : State) : Host.Outcome State Fault Refusal := stepWith Config.hardware s

/-- The state in which the host presents the given command word next, before whatever else waits (log entry 8). -/
def State.withFetchWord (s : State) (nbits w : Nat) : State :=
  { s with inbox := .command (tableCommand nbits w) :: s.inbox }

end Sys2Proof.Machine
end

