-- ==== Sys2Proof/Machine/Assembler.lean ====
section
/-! DEFINITION. The assembler syntax of R92 and the pseudo-forms and directives of R93, which the host side carries out before
commands reach the block (R94), and the printed form of responses (R92). Not part of the hardware (spec/92 D27); the details
R92 leaves open are in log entry 15. -/

namespace Sys2Proof.Machine

/-- One line of assembly text. -/
inductive AsmLine where
  /-- Nothing on the line but blanks and a comment. -/
  | blank
  /-- A command or `.word64`: one command word (R92). -/
  | emit (w : Command)
  /-- `.rept n` (R93). -/
  | rept (n : Nat)
  /-- `.endr` (R93). -/
  | endr
  deriving DecidableEq, Repr

/-- A decimal digit. -/
def decimalDigit (c : Char) : Option Nat :=
  if 48 ≤ c.toNat ∧ c.toNat ≤ 57 then some (c.toNat - 48) else none

/-- A hexadecimal digit, letters already in upper case. -/
def hexDigit (c : Char) : Option Nat :=
  if 65 ≤ c.toNat ∧ c.toNat ≤ 70 then some (c.toNat - 55) else decimalDigit c

/-- The number a non-empty list of digits stands for. -/
def digitsValue (base : Nat) (digit : Char → Option Nat) : List Char → Option Nat
  | [] => none
  | c :: cs => cs.foldl (fun acc d => do return (← acc) * base + (← digit d)) (digit c)

/-- A hexadecimal literal (R92), read after `asmTokens` has put the line in upper case. That the text may also hold `0X`, and
digits of either case, is the model's choice, since R92 names only `0x` (DESIGN CHOICE, safe, log entry 15). -/
def hexLiteral : List Char → Option Nat
  | '0' :: 'X' :: ds => digitsValue 16 hexDigit ds
  | _ => none

/-- A decimal literal or a `0x` hexadecimal literal (R92). -/
def literal (t : List Char) : Option Nat :=
  match hexLiteral t with
  | some n => some n
  | none => digitsValue 10 decimalDigit t

/-- A literal below the bound; any other is an assembly error (R92). -/
def below (bound : Nat) (n : Option Nat) : Option Nat :=
  match n with
  | none => none
  | some v => if v < bound then some v else none

/-- The words of a line in upper case, since mnemonics are case-insensitive; `;` starts a comment (R92). That this makes the
directives `.word64`, `.rept` and `.endr`, `DISCARD` and the literals case-insensitive too, and that white space parts the
words, is the model's choice: R92 says so of mnemonics only (DESIGN CHOICE, safe, log entry 15). -/
def asmTokens (line : List Char) : List (List Char) :=
  (((line.takeWhile (· ≠ ';')).splitOnP Char.isWhitespace).filter (· ≠ [])).map (·.map Char.toUpper)

/-- The accessors by mnemonic, and `DISCARD`, which is NEXT.U32 with its response ignored by the host (R92, R93). -/
def operandlessForms : List (String × Instr) :=
  [("SEED", .seed Config.defaultSeed), ("DISCARD", .nextU32), ("NEXT.U32", .nextU32), ("NEXT.I31", .nextI31),
    ("NEXT.DC", .nextDc), ("NEXT.DLC", .nextDlc), ("NEXT.DO", .nextDo), ("NEXT.FC", .nextFc), ("NEXT.FLC", .nextFlc),
    ("NEXT.FO", .nextFo), ("NEXT.BOOL", .nextBool)]

/-- A line with one word: a command without an operand, a pseudo-form, or `.endr` (R92, R93). -/
def parseOneWord (t : List Char) : Option AsmLine :=
  if t = ".ENDR".toList then some .endr
  else (operandlessForms.find? (fun f => f.1.toList = t)).map (fun f => .emit (encode f.2))

/-- A line with a word and an argument: `SEED imm`, `.word64 hex` or `.rept n` (R92, R93). -/
def parseWithArgument (t arg : List Char) : Option AsmLine :=
  if t = "SEED".toList then
    (below (2 ^ 32) (literal arg)).map (fun n => .emit (encode (.seed (BitVec.ofNat 32 n))))
  else if t = ".WORD64".toList then
    (below (2 ^ 64) (hexLiteral arg)).map (fun n => .emit (BitVec.ofNat 64 n))
  else if t = ".REPT".toList then (literal arg).map .rept
  else none

/-- One line; none is an assembly error (R92). That a word R92 and R93 do not name, an operand where none belongs, a missing
operand and a further word on the line are assembly errors is the model's choice (DESIGN CHOICE, safe, log entry 15). -/
def parseLine (line : List Char) : Option AsmLine :=
  match asmTokens line with
  | [] => some .blank
  | [t] => parseOneWord t
  | [t, arg] => parseWithArgument t arg
  | _ => none

/-- The command stream of some lines: `done` is what the innermost open repetition holds so far, `opened` the counts and the
contents before each open `.rept`, innermost first (R93, R94). -/
def expandLines : List AsmLine → List Command → List (Nat × List Command) → Option (List Command)
  | [], done, [] => some done
  | [], _, _ :: _ => none
  | .blank :: ls, done, opened => expandLines ls done opened
  | .emit w :: ls, done, opened => expandLines ls (done ++ [w]) opened
  | .rept n :: ls, done, opened => expandLines ls [] ((n, done) :: opened)
  | .endr :: ls, done, (n, before) :: opened => expandLines ls (before ++ (List.replicate n done).flatten) opened
  | .endr :: _, _, [] => none

/-- The command words of an assembly text, one command on each line; none is an assembly error (R92, R93). That one bad line
leaves the whole text without commands is the model's choice: R92 says that a bad literal produces no command, and is silent on
the other lines (DESIGN CHOICE, safe, log entry 15). -/
def assemble (text : String) : Option (List Command) :=
  match (text.toList.splitOn '\n').mapM parseLine with
  | none => none
  | some ls => expandLines ls [] []

/-- The hexadecimal digit with a value below 16. -/
def hexChar (n : Nat) : Char := if n < 10 then Char.ofNat (48 + n) else Char.ofNat (55 + n)

/-- The 16 hexadecimal digits of DATA, most significant first (R92). -/
def hexDigits16 (d : Data) : List Char :=
  (List.range 16).map (fun k => hexChar (d.toNat / 16 ^ (15 - k) % 16))

/-- The printed form of a response: `-> ok 0x<16 hex digits>` or `-> err` (R92). -/
def Response.print (r : Response) : String :=
  if r.err = 0#1 then String.ofList ("-> ok 0x".toList ++ hexDigits16 r.data) else "-> err"

end Sys2Proof.Machine
end

