-- ==== Sys2Proof/Machine/System.lean ====
section
/-! DEFINITION. Several hosts on one block (R68, R229, R265) and several blocks (R43, R228). The order in which the commands of
several hosts interleave is left free: it is an argument, the schedule, and a claim ranges over every schedule. -/

namespace Sys2Proof.Machine

/-- One block whose command port several hosts share: each host holds the commands it has not yet had accepted, first one
first (R68). -/
structure SharedPort where
  block : State
  hosts : List (List Command)
  deriving DecidableEq, Repr

/-- The port accepts the next command of host `h` (R67, R68). That nothing is accepted where that host has none left, or where
there is no such host, is the model's choice (DESIGN CHOICE, log entry 13). -/
def SharedPort.accept (h : Nat) (p : SharedPort) : SharedPort :=
  match p.hosts[h]? with
  | some (w :: ws) => { block := p.block.present (.command w), hosts := p.hosts.set h ws }
  | some [] => p
  | none => p

/-- Host `h` has its turn: its command is accepted and carried out as one atomic step (R63, R68). That the turn of a host with
no command, or of no host, passes as an idle step is the model's choice (DESIGN CHOICE, log entries 4 and 13). -/
def SharedPort.turn (h : Nat) (p : SharedPort) : Host.Outcome SharedPort Fault Refusal :=
  match step (p.accept h).block with
  | .next b => .next { p.accept h with block := b }
  | .fault r => .fault r
  | .refused r => .refused r

/-- The turns of a schedule, in order; the schedule is free (R68). -/
def SharedPort.run : List Nat → SharedPort → Host.Outcome SharedPort Fault Refusal
  | [], p => .next p
  | h :: hs, p =>
    match p.turn h with
    | .next p' => p'.run hs
    | .fault r => .fault r
    | .refused r => .refused r

/-- The one total order of commands that a schedule makes of the hosts' commands (R67, R68); a turn of a host without a
command, or of no host, adds none (log entry 13). -/
def serialise : List Nat → List (List Command) → List Command
  | [], _ => []
  | h :: schedule, hosts =>
    match hosts[h]? with
    | some (w :: ws) => w :: serialise schedule (hosts.set h ws)
    | some [] => serialise schedule hosts
    | none => serialise schedule hosts

/-- Any number of blocks, each with its own state (R228). They have no identifiers of their own: the number is the place in
the list. -/
structure BlockArray where
  blocks : List State
  deriving DecidableEq, Repr

/-- The host side presents an input to block `k` (R43). That an input presented to a block that is not there is dropped without
effect is the model's choice (DESIGN CHOICE, log entry 13). -/
def BlockArray.present (k : Nat) (x : Input) (a : BlockArray) : BlockArray :=
  { blocks := a.blocks.modify k (State.present x) }

/-- Block `k` takes one step (R43, R228). That nothing happens where there is no such block is the model's choice (DESIGN
CHOICE, log entry 13). -/
def BlockArray.step (k : Nat) (a : BlockArray) : Host.Outcome BlockArray Fault Refusal :=
  match a.blocks[k]? with
  | none => .next a
  | some s =>
    match Machine.step s with
    | .next t => .next { blocks := a.blocks.set k t }
    | .fault r => .fault r
    | .refused r => .refused r

end Sys2Proof.Machine
end

