-- ==== Sys2Proof/Safety.lean ====
section
/-! DEFINITION. The terms the claims use: what a safe run is, when two states hold the same generator, what it means that a
state is on the raw stream of a seed (R139), and the stream machine, which answers a whole input stream from the seed and the
number of draws alone (R67, R131). -/

namespace Sys2Proof.Safety

open Sys2Proof.Machine

/-- The input is a command or a reset: not a transfer that is no command (R61). -/
def wholeInput : Input → Bool
  | .command _ => true
  | .reset => true
  | .resetDuring _ => true
  | .powerCycle => true
  | .partialTransfer _ _ => false

/-- A safe run: nothing that waits on the port is a partial transfer, so that every step has a next state (R61, R262). -/
def SafeInbox (s : State) : Prop := ∀ x ∈ s.inbox, wholeInput x = true

/-- The two states hold the same generator: `mt`, `idx` and the ghost counter (R30, R38). -/
def SameGenerator (s t : State) : Prop := s.mt = t.mt ∧ s.idx = t.idx ∧ s.draws = t.draws

/-- The number of twists after `n` draws from a seeding: draws number 1, 625, 1249 and so on twist (R132). -/
def twistsAfter (n : Nat) : Nat := (n + 623) / 624

/-- The state is where `s.draws` draws from `Init(seed)` lead (R139): its words are those after as many twists as those draws
make, and `idx` has moved one further with each draw of the present block. -/
def OnStream (seed : Word) (s : State) : Prop :=
  s.mt = twistedWords seed (twistsAfter s.draws) ∧ s.idx.val + 624 * twistsAfter s.draws = s.draws + 624

/-- The state is on the stream of some seed. -/
def Reaches (s : State) : Prop := ∃ seed, OnStream seed s

/-- The accessor function of a command: pure, from the drawn word to DATA (R87, R130). Its SEED arm only makes it total: SEED
draws nothing, and the statements use the function for accessors alone. -/
def accessorResult : Instr → Word → Data
  | .seed _ => fun _ => dataNone
  | .nextU32 => resultU32
  | .nextI31 => resultI31
  | .nextDc => resultDc
  | .nextDlc => resultDlc
  | .nextDo => resultDo
  | .nextFc => resultFc
  | .nextFlc => resultFlc
  | .nextFo => resultFo
  | .nextBool => resultBool

/-- The stream machine's state: the seed, and how many raw draws have been taken since. -/
structure StreamPos where
  seed : Word
  drawn : Nat
  deriving DecidableEq, Repr

/-- What a legal command does to the stream machine, and its response: SEED starts the seed's stream, an accessor takes the
next raw draw of the stream (R67, R131). -/
def StreamPos.legal (p : StreamPos) : Instr → StreamPos × List Response
  | .seed v => (⟨v, 0⟩, [⟨0#1, 0#64⟩])
  | .nextU32 => (⟨p.seed, p.drawn + 1⟩, [⟨0#1, resultU32 (rawDraw p.seed (p.drawn + 1))⟩])
  | .nextI31 => (⟨p.seed, p.drawn + 1⟩, [⟨0#1, resultI31 (rawDraw p.seed (p.drawn + 1))⟩])
  | .nextDc => (⟨p.seed, p.drawn + 1⟩, [⟨0#1, resultDc (rawDraw p.seed (p.drawn + 1))⟩])
  | .nextDlc => (⟨p.seed, p.drawn + 1⟩, [⟨0#1, resultDlc (rawDraw p.seed (p.drawn + 1))⟩])
  | .nextDo => (⟨p.seed, p.drawn + 1⟩, [⟨0#1, resultDo (rawDraw p.seed (p.drawn + 1))⟩])
  | .nextFc => (⟨p.seed, p.drawn + 1⟩, [⟨0#1, resultFc (rawDraw p.seed (p.drawn + 1))⟩])
  | .nextFlc => (⟨p.seed, p.drawn + 1⟩, [⟨0#1, resultFlc (rawDraw p.seed (p.drawn + 1))⟩])
  | .nextFo => (⟨p.seed, p.drawn + 1⟩, [⟨0#1, resultFo (rawDraw p.seed (p.drawn + 1))⟩])
  | .nextBool => (⟨p.seed, p.drawn + 1⟩, [⟨0#1, resultBool (rawDraw p.seed (p.drawn + 1))⟩])

/-- What one input does to the stream machine, and the responses it gives: an illegal word changes nothing and gives ERR = 1
(R221), a reset starts the stream of 5489 and gives no response (R250, R252). -/
def StreamPos.input (p : StreamPos) : Input → StreamPos × List Response
  | .command w =>
    match decode w with
    | .illegal _ => (p, [⟨1#1, 0#64⟩])
    | .legal i => p.legal i
  | .reset => (⟨5489#32, 0⟩, [])
  | .resetDuring _ => (⟨5489#32, 0⟩, [])
  | .powerCycle => (⟨5489#32, 0⟩, [])
  | .partialTransfer _ _ => (p, [])

/-- What a list of inputs does to the stream machine, and all its responses in order. -/
def StreamPos.inputs (p : StreamPos) : List Input → StreamPos × List Response
  | [] => (p, [])
  | x :: xs =>
    let first := p.input x
    let later := first.1.inputs xs
    (later.1, first.2 ++ later.2)

/-- The command word is illegal by one of the four conditions of R90: RSV ≠ 0; OP not in the table of R84; an EXT opcode
where the EXT accessors are absent; OP ≠ 0x01 and ARG ≠ 0. -/
def IllegalWord (cfg : Config) (w : Command) : Prop :=
  rsvField w ≠ 0#24
    ∨ opField w ∉ [0x01#8, 0x10#8, 0x11#8, 0x12#8, 0x13#8, 0x14#8, 0x18#8, 0x19#8, 0x1A#8, 0x1C#8]
    ∨ (opField w ∈ [0x13#8, 0x14#8, 0x18#8, 0x19#8, 0x1A#8, 0x1C#8] ∧ cfg.extAccessors = false)
    ∨ (opField w ≠ 0x01#8 ∧ argField w ≠ 0#32)

/-- `RN32(u)` of a 32-bit integer, as an integer: exact below 2^24, else the nearest multiple of the unit in the last place,
ties to the even one (R190). -/
def roundedTo24Bits (u : Nat) : Nat :=
  if u < 2 ^ 24 then u
  else roundQuotient u (2 ^ (Nat.log2 u - 23)) * 2 ^ (Nat.log2 u - 23)

/-- The product `u·(2^32 + 1)` of R172, the exact product of NEXT.DC scaled by 2^64. -/
def scaledProduct (y : Word) : Nat := y.toNat * (2 ^ 32 + 1)

/-- The weight `2^(Lp - 53)` of the last significand bit of the exact product of NEXT.DC, Lp being its bit length (R172). -/
def productUlp (y : Word) : Nat := 2 ^ (Nat.log2 (scaledProduct y) + 1 - 53)

/-- The exact product of NEXT.DC lies halfway between two binary64 values: `Lp ≥ 54` and
`P mod 2^(Lp-53) = 2^(Lp-54)` (R172 item 3). -/
def ProductIsTie (y : Word) : Prop :=
  54 ≤ Nat.log2 (scaledProduct y) + 1 ∧ scaledProduct y % productUlp y * 2 = productUlp y

/-- The even one of the two binary64 values beside a tie is the lower one (R172 item 3). -/
def LowerNeighbourIsEven (y : Word) : Prop := scaledProduct y / productUlp y % 2 = 0

/-- The reading of nextDoubleClosed that the spec rejects: the correctly rounded quotient (R171, R172). -/
def quotientReading (y : Word) : Data := f64bits (rn64 (Exact.quotient y.toNat 4294967295))

/-- The encoding is of +0 or of a positive normal number: sign 0, exponent field neither all ones nor, unless every bit is 0,
all zeros (R175). -/
def PlainEncoding (f : Format) (b : Nat) : Prop :=
  f.signOf b = 0 ∧ f.exponentOf b ≠ 2 ^ f.expBits - 1 ∧ (f.exponentOf b = 0 → b = 0)

/-- The number of set bits of a word. -/
def setBits (y : Word) : Nat := ((List.range 32).filter (fun k => y.getLsbD k)).length

/-- The state of an outcome, where it is a next state. -/
def nextState : Host.Outcome State Fault Refusal → Option State
  | .next t => some t
  | .fault _ => none
  | .refused _ => none

end Sys2Proof.Safety
end

