-- ==== Sys2Proof/Certificates/Slice0/Obligations.lean ====
section
/-! DEFINITION. The statements about the model, for the provers. Each docstring names the rule of the spec it formalises, or
the sections it rests on and what in it is the model's choice. -/

open Sys2Proof Sys2Proof.Machine Sys2Proof.Safety

/-- The words of R84, written out, decode to the commands they stand for. -/
def Obligations.DecoderReadsTheSpecsWords : Prop :=
  decode 0x0000157100000001#64 = .legal (.seed 5489#32)
    ∧ decode 0xFFFFFFFF00000001#64 = .legal (.seed 0xFFFFFFFF#32)
    ∧ decode 0x0000000000000010#64 = .legal .nextU32
    ∧ decode 0x0000000000000011#64 = .legal .nextI31
    ∧ decode 0x0000000000000012#64 = .legal .nextDc
    ∧ decode 0x0000000000000013#64 = .legal .nextDlc
    ∧ decode 0x0000000000000014#64 = .legal .nextDo
    ∧ decode 0x0000000000000018#64 = .legal .nextFc
    ∧ decode 0x0000000000000019#64 = .legal .nextFlc
    ∧ decode 0x000000000000001A#64 = .legal .nextFo
    ∧ decode 0x000000000000001C#64 = .legal .nextBool

/-- Decoding the encoding of a command the configuration has gives that command back, with every seed (R80, R83, R84, R85). -/
def Obligations.DecodeOfEncodeIsTheCommand : Prop :=
  ∀ (cfg : Config) (i : Instr), WellFormed cfg i = true → decodeWith cfg (encode i) = .legal i

/-- A legal word is the encoding of the command it decodes to, so each command has one word, and the configuration has the
command (R80, R84, R85). -/
def Obligations.EncodeOfDecodeIsTheWord : Prop :=
  ∀ (cfg : Config) (w : Command) (i : Instr),
    decodeWith cfg w = .legal i → encode i = w ∧ WellFormed cfg i = true

/-- R84: a word is legal exactly when one row of the opcode table accepts it, its option being present; that row then names
the command. -/
def Obligations.LegalExactlyWhenOneTableRowAccepts : Prop :=
  ∀ (cfg : Config) (w : Command),
    ((∃ i, decodeWith cfg w = .legal i) ↔ ∃! row, row ∈ opcodeTable ∧ row.accepts cfg w = true)
      ∧ ∀ i row, decodeWith cfg w = .legal i → row ∈ opcodeTable → row.accepts cfg w = true →
        row.mnemonic = i.mnemonic ∧ opField w = opcode i

/-- R90, R221: an illegal word gives ERR = 1 and DATA = 0 and changes nothing else, whichever condition it breaks; every other
word decodes to a command the configuration has. -/
def Obligations.IllegalWordsAreThoseOfRule90 : Prop :=
  ∀ (cfg : Config) (s : State) (w : Command) (rest : List Input), s.inbox = .command w :: rest →
    (IllegalWord cfg w →
      stepWith cfg s = .next { s with inbox := rest, responses := s.responses ++ [⟨1#1, 0#64⟩] })
    ∧ (¬ IllegalWord cfg w → ∃ i, decodeWith cfg w = .legal i ∧ WellFormed cfg i = true)

/-- R85 `Step`: where the word the host presents decodes to a command, the step is that command's rule, on the state from
whose port the word is taken. -/
def Obligations.StepRunsTheDecodedCommand : Prop :=
  ∀ (s : State) (w : Command) (rest : List Input) (i : Instr), s.inbox = .command w :: rest →
    decode w = .legal i → step s = exec i { s with inbox := rest }

/-- R86: every command, legal or illegal, produces exactly one response. ERR = 0 where the command was legal; ERR = 1 where it
was illegal, and nothing changed. -/
def Obligations.EveryCommandGetsOneResponse : Prop :=
  ∀ (s : State) (w : Command) (rest : List Input), s.inbox = .command w :: rest →
    ∃ t r, step s = .next t ∧ t.inbox = rest ∧ t.responses = s.responses ++ [r]
      ∧ (r.err = 0#1 ↔ ∃ i, decode w = .legal i)
      ∧ (r.err = 1#1 ↔ ∃ why, decode w = .illegal why)
      ∧ (r.err = 1#1 → SameGenerator s t)

/-- R250: from any state, reset leaves `Init(5489)` with `idx` = 624 and the ghost counter 0, and gives no response; the first
NEXT.U32 after it returns 0xD091BB5C. -/
def Obligations.ResetLeavesTheDefaultSeedState : Prop :=
  ∀ (s : State) (rest : List Input), s.inbox = .reset :: rest →
    ∃ t, step s = .next t ∧ t.mt = initWords 5489#32 ∧ t.idx = 624 ∧ t.draws = 0 ∧ t.responses = s.responses
      ∧ ∃ u, exec .nextU32 t = .next u ∧ u.responses = t.responses ++ [⟨0#1, 0x00000000D091BB5C#64⟩]

/-- R40: the reset values. -/
def Obligations.ResetStateHoldsTheListedValues : Prop :=
  wordAt State.reset.mt 0 = 0x00001571#32
    ∧ (∀ i, 1 ≤ i → i ≤ 623 → wordAt State.reset.mt i = wordAt (initWords 5489#32) i)
    ∧ wordAt State.reset.mt 1 = 0x4D98EE96#32 ∧ wordAt State.reset.mt 2 = 0xAF25F095#32
    ∧ wordAt State.reset.mt 3 = 0xAFD9BA96#32 ∧ wordAt State.reset.mt 4 = 0x6FCBD068#32
    ∧ wordAt State.reset.mt 623 = 0x04C46D8C#32
    ∧ State.reset.idx = 624 ∧ State.reset.draws = 0

/-- R252: a command in progress when reset comes has no effect and no response, whichever word it is; the state is the reset
state of R250. A response given before stays given. -/
def Obligations.ResetBeatsTheCommandInFlight : Prop :=
  ∀ (s : State) (w : Command) (rest : List Input), s.inbox = .resetDuring w :: rest →
    ∃ t, step s = .next t ∧ t.mt = initWords 5489#32 ∧ t.idx = 624 ∧ t.draws = 0 ∧ t.responses = s.responses

/-- What waits behind a reset stays waiting. This is the model's choice (log entries 5 and 6); R252 says only that the command
in flight is lost. -/
def Obligations.InputsBehindAResetStay : Prop :=
  ∀ (s : State) (x : Input) (rest : List Input), s.inbox = x :: rest →
    (x = .reset ∨ x = .powerCycle ∨ ∃ w, x = .resetDuring w) → ∃ t, step s = .next t ∧ t.inbox = rest

/-- R251, one step: reset and `SEED 5489` leave the same state, but for the response that SEED gives. That what waits is the
same after the reset too is the model's choice (log entry 5). -/
def Obligations.ResetEqualsSeedDefault : Prop :=
  ∀ (s : State) (rest : List Input), ∃ t, step { s with inbox := .reset :: rest } = .next t
    ∧ step { s with inbox := .command 0x0000157100000001#64 :: rest }
      = .next { t with responses := t.responses ++ [⟨0#1, 0#64⟩] }

/-- R231: with nothing presented the block is idle and keeps its whole state; power-up is a reset. That an idle step is a step
(log entry 4), that a power cycle is one input (log entry 6) and that the inputs behind it stay (log entry 5) are the model's
choices: R231 says nothing of waiting inputs. -/
def Obligations.IdleKeepsTheStateAndPowerUpResets : Prop :=
  (∀ s : State, s.inbox = [] → step s = .next s)
  ∧ ∀ (s : State) (rest : List Input), s.inbox = .powerCycle :: rest →
    step s = .next { mt := initWords 5489#32, idx := 624, draws := 0, inbox := rest, responses := s.responses }

/-- R61: a transfer of less than 64 bits has no step and produces no response. -/
def Obligations.PartialTransferHasNoStep : Prop :=
  ∀ (s : State) (width : Fin 64) (bits : Nat) (rest : List Input), s.inbox = .partialTransfer width bits :: rest →
    step s = .refused .partialTransfer

/-- R220, R221, R262: where the host presents whole inputs only, no step stops, and each takes the first input that waits (one
command at a time, R260). Three clauses of it are the model's choice and no rule's: that the inputs behind a reset (R252) or a
power cycle (R231) stay and are carried out after it (log entry 5), that a power cycle is one input (log entry 6), and that a
step with nothing waiting idles, which is the case of an n beyond the inbox (R231, log entry 4). -/
def Obligations.SafeRunsNeverStop : Prop :=
  ∀ s : State, SafeInbox s →
    (∀ n, ∃ t, Host.Core.run Sys2Proof.core n s = .next t ∧ t.inbox = s.inbox.drop n ∧ SafeInbox t)

/-- R110: SEED replaces all 624 words and `idx`, restarts the ghost counter and responds (0, 0), for every seed and from every
state; the waiting inputs and the earlier responses stay. Its word has OP = 0x01, RSV = 0 and the seed in ARG. The corner
values and the example of the rule. -/
def Obligations.SeedReplacesTheWholeState : Prop :=
  (∀ (seed : Word) (s : State),
    exec (.seed seed) s = .next
      { mt := initWords seed, idx := 624, draws := 0, inbox := s.inbox, responses := s.responses ++ [⟨0#1, 0#64⟩] }
    ∧ encode (.seed seed) &&& 0x00000000FFFFFFFF#64 = 0x0000000000000001#64 ∧ argField (encode (.seed seed)) = seed)
  ∧ wordAt (initWords 0#32) 0 = 0#32 ∧ wordAt (initWords 0#32) 1 = 1#32 ∧ wordAt (initWords 0#32) 2 = 0x6C078967#32
  ∧ wordAt (initWords 0xFFFFFFFF#32) 1 = 0x4FE1DA6D#32
  ∧ encode (.seed 5489#32) = 0x0000157100000001#64
  ∧ ∀ s : State, ∃ t u, exec (.seed 5489#32) s = .next t ∧ exec .nextU32 t = .next u
      ∧ u.responses = s.responses ++ [⟨0#1, 0#64⟩, ⟨0#1, 0x00000000D091BB5C#64⟩]

/-- R111: word 0 of `Init(s)` is s, and each later word is the recurrence of the one before it; `idx` is 624. -/
def Obligations.SeedingFollowsTheRecurrence : Prop :=
  ∀ (seed : Word) (s : State),
    wordAt (initWords seed) 0 = seed
      ∧ (∀ i, 1 ≤ i → i ≤ 623 →
        wordAt (initWords seed) i
          = 1812433253#32 * (wordAt (initWords seed) (i - 1) ^^^ (wordAt (initWords seed) (i - 1) >>> 30))
            + BitVec.ofNat 32 i)
      ∧ (s.seeded seed).mt = initWords seed ∧ (s.seeded seed).idx = 624

/-- R113, R114: after SEED nothing of the state before it can be observed. Two blocks given SEED with one seed and then the
same inputs run alike: the same generator and the same new responses at every later time. Among the inputs and the steps are
resets with inputs behind them, power cycles and idle steps, which are the model's readings (log entries 4, 5 and 6). -/
def Obligations.SeedErasesThePast : Prop :=
  ∀ (seed : Word) (rest : List Input) (s t : State) (n : Nat) (s' : State),
    s.inbox = .command (encode (.seed seed)) :: rest → t.inbox = .command (encode (.seed seed)) :: rest →
    Host.Core.run Sys2Proof.core (n + 1) s = .next s' →
    ∃ t' new, Host.Core.run Sys2Proof.core (n + 1) t = .next t' ∧ SameGenerator s' t' ∧ s'.inbox = t'.inbox
      ∧ s'.responses = s.responses ++ new ∧ t'.responses = t.responses ++ new

/-- R64: issuing SEED s twice leaves the generator that issuing it once leaves. -/
def Obligations.SeedIsIdempotent : Prop :=
  ∀ (seed : Word) (s : State), ∃ t u, exec (.seed seed) s = .next t ∧ exec (.seed seed) t = .next u ∧ SameGenerator t u

/-- R132, R137: `Draw()`. With `idx` = 624 it twists first and takes word 0; else it takes `mt[idx]` and leaves `mt`. It adds 1
to `idx` and to the ghost counter, changes nothing else, and leaves `idx` in 1..624. -/
def Obligations.DrawTakesTheNextWord : Prop :=
  ∀ s : State,
    (s.idx = 624 → s.draw.1 = temper (wordAt (twist s.mt) 0) ∧ s.draw.2.mt = twist s.mt ∧ s.draw.2.idx = 1)
      ∧ (s.idx ≠ 624 → s.draw.1 = temper (wordAt s.mt s.idx.val) ∧ s.draw.2.mt = s.mt
        ∧ s.draw.2.idx.val = s.idx.val + 1)
      ∧ s.draw.2.draws = s.draws + 1 ∧ s.draw.2.inbox = s.inbox ∧ s.draw.2.responses = s.responses
      ∧ 1 ≤ s.draw.2.idx.val ∧ s.draw.2.idx.val ≤ 624

/-- R134, R261: which words the in-place twist reads. Word i + 397 is old up to i = 226 and new from there on; word i + 1 is
old up to i = 622, and at i = 623 it is the new word 0. -/
def Obligations.TwistReadsOldAndNewWords : Prop :=
  ∀ (mt : StateWords) (i : Nat), i ≤ 623 →
    wordAt (twist mt) i
      = (if i ≤ 226 then wordAt mt (i + 397) else wordAt (twist mt) (i - 227))
        ^^^ twistA ((wordAt mt i &&& 0x80000000#32)
          ||| ((if i ≤ 622 then wordAt mt (i + 1) else wordAt (twist mt) 0) &&& 0x7FFFFFFF#32))

/-- R133: the twist transform of one word. -/
def Obligations.TwistTransformOfOneWord : Prop :=
  ∀ x : Word, (x[0] = false → twistA x = x >>> 1) ∧ (x[0] = true → twistA x = (x >>> 1) ^^^ 0x9908B0DF#32)

/-- R136: the tempering, line by line; it is a bijection on the 32-bit words, and has the example values. -/
def Obligations.TemperingIsABijection : Prop :=
  (∀ y y1 y2 y3 : Word, y1 = y ^^^ ((y >>> 11) &&& 0xFFFFFFFF#32) → y2 = y1 ^^^ ((y1 <<< 7) &&& 0x9D2C5680#32) →
    y3 = y2 ^^^ ((y2 <<< 15) &&& 0xEFC60000#32) → temper y = y3 ^^^ (y3 >>> 18))
    ∧ Function.Bijective temper
    ∧ temper 0#32 = 0#32 ∧ temper 1#32 = 0x00400091#32 ∧ temper 0xFFFFFFFF#32 = 0x6FE01BF8#32

/-- R139: the closed form of the raw stream. `x` begins with the words of `Init(s)` and obeys the recurrence; between two
twists the state holds `x_{624t}` to `x_{624t+623}`; the k-th `Draw()` after `Init(s)` returns `Temper(x_{623+k})`. -/
def Obligations.ClosedFormOfTheRawStream : Prop :=
  ∀ seed : Word,
    (∀ i, i < 624 → streamWord seed i = wordAt (initWords seed) i)
      ∧ (∀ k, streamWord seed (k + 624)
          = streamWord seed (k + 397)
            ^^^ twistA ((streamWord seed k &&& 0x80000000#32) ||| (streamWord seed (k + 1) &&& 0x7FFFFFFF#32)))
      ∧ (∀ t i, i < 624 → wordAt (twist^[t] (initWords seed)) i = streamWord seed (624 * t + i))
      ∧ ∀ (s : State) (k : Nat), 1 ≤ k →
          ((fun u => u.draw.2)^[k - 1] (s.seeded seed)).draw.1 = temper (streamWord seed (623 + k))

/-- R130, R131: each of the nine accessors executes `Draw()` exactly once, whichever it is, and responds with its own pure
function of the drawn word. -/
def Obligations.OneDrawPerAccessor : Prop :=
  ∀ (i : Instr) (s : State), i.isAccessor = true →
    exec i s = .next
      { s.draw.2 with responses := s.responses ++ [⟨0#1, accessorResult i s.draw.1⟩] }

/-- R42: the state changes under exactly two events: seeding, by SEED or a reset, and one `Draw()` by an accessor. An illegal
word leaves the generator as it is (R42, R221). Two cases are not R42's but rest on R231 and the model's choices: a power cycle
is one input, which seeds as a reset does (log entry 6), and a step with nothing waiting idles and changes nothing (log
entry 4). -/
def Obligations.OnlyDrawsAndSeedingsChangeTheGenerator : Prop :=
  ∀ s t : State, step s = .next t →
    (SameGenerator s t ∧ (s.inbox = [] ∨ ∃ w rest why, s.inbox = .command w :: rest ∧ decode w = .illegal why))
      ∨ (SameGenerator (s.seeded 5489#32) t
          ∧ ∃ x rest, s.inbox = x :: rest ∧ (x = .reset ∨ x = .powerCycle ∨ ∃ w, x = .resetDuring w))
      ∨ (∃ seed w rest, SameGenerator (s.seeded seed) t
          ∧ s.inbox = .command w :: rest ∧ decode w = .legal (.seed seed))
      ∨ (SameGenerator s.draw.2 t
          ∧ ∃ i w rest, s.inbox = .command w :: rest ∧ decode w = .legal i ∧ i.isAccessor = true)

/-- R132: on the stream of a seed, a draw twists exactly when its number, counted from the seeding, is 1, 625, 1249 and so
on. -/
def Obligations.TwistHappensEvery624Draws : Prop :=
  ∀ (seed : Word) (s : State), OnStream seed s →
    (s.idx = 624 ↔ (s.draws + 1) % 624 = 1)
      ∧ s.draw.2.mt = if (s.draws + 1) % 624 = 1 then twist s.mt else s.mt

/-- Every step keeps the state on the stream of a seed (R42, R131, R139): the words are always those after as many twists as
the draws since the seeding make, and `idx` the place of the next one. Among the steps are idling and a power cycle, which are
the model's choices (R231, log entries 4 and 6). -/
def Obligations.EveryStepStaysOnAStream : Prop :=
  ∀ s t : State, Reaches s → step s = .next t → Reaches t

/-- The reset state is at the start of the stream of 5489 (R40, R139). -/
def Obligations.ResetIsOnTheDefaultStream : Prop :=
  OnStream 5489#32 State.reset ∧ State.reset.draws = 0

/-- R67: after a seeding, the k-th accessor consumes the k-th raw draw of that seed's stream, and its response is the
accessor's function of that draw, whatever the accessors before it were. -/
def Obligations.KthAccessorUsesKthDraw : Prop :=
  ∀ (seed : Word) (commands : List Instr) (s : State), (∀ i ∈ commands, i.isAccessor = true) →
    s.inbox = .command (encode (.seed seed)) :: commands.map (fun i => .command (encode i)) →
    ∃ t, Host.Core.run Sys2Proof.core (commands.length + 1) s = .next t ∧ t.inbox = []
      ∧ t.responses = s.responses ++ ⟨0#1, 0#64⟩
        :: (commands.zipIdx.map (fun c => ⟨0#1, accessorResult c.1 (rawDraw seed (c.2 + 1))⟩))

/-- The block refines the stream machine: from a state on a seed's stream, any whole inputs give exactly the responses that
the seed, the number of draws and the inputs determine, and leave a state on the stream the stream machine names (R67, R131,
R221, R231, R250, R252, R260). That the inputs behind a reset or a power cycle are carried out after it is the model's choice
(log entry 5, unsafe for claims about what follows a reset), and so is the power cycle as one input (log entry 6). -/
def Obligations.BlockRefinesTheStreamMachine : Prop :=
  ∀ (s : State) (p : StreamPos), SafeInbox s → OnStream p.seed s → s.draws = p.drawn →
    ∃ t, Host.Core.run Sys2Proof.core s.inbox.length s = .next t ∧ t.inbox = []
      ∧ t.responses = s.responses ++ (p.inputs s.inbox).2
      ∧ OnStream (p.inputs s.inbox).1.seed t ∧ t.draws = (p.inputs s.inbox).1.drawn

/-- R140: the conformance vector. -/
def Obligations.FirstDrawOfTheDefaultSeed : Prop :=
  ∀ s : State, (s.seeded 5489#32).draw.1 = 3499211612#32

/-- R138: NEXT.U32 returns the raw draw, zero-extended: DATA[63:32] is 0. Every 32-bit value is the draw of some state, and the
first draw after a seeding twists. Its word, and the example of the rule. -/
def Obligations.NextU32ReturnsTheDraw : Prop :=
  (∀ s : State,
    exec .nextU32 s = .next { s.draw.2 with responses := s.responses ++ [⟨0#1, s.draw.1.setWidth 64⟩] }
      ∧ (s.draw.1.setWidth 64).extractLsb' 32 32 = 0#32)
  ∧ (∀ y : Word, ∃ s : State, s.draw.1 = y)
  ∧ (∀ (seed : Word) (s : State), (s.seeded seed).draw.2.mt = twist (initWords seed))
  ∧ encode .nextU32 = 0x0000000000000010#64
  ∧ ∀ s : State, ∃ t, exec .nextU32 (s.seeded 5489#32) = .next t
      ∧ t.responses = s.responses ++ [⟨0#1, 0x00000000D091BB5C#64⟩]

/-- R160: NEXT.I31 returns the draw shifted right logically by one: its value is u(y) div 2, as an unsigned and as a signed
number, and zero and sign extension agree. Its word, the corner values and the example of the rule. -/
def Obligations.NextI31HalvesTheDraw : Prop :=
  (∀ s : State, ∃ r : Word,
    exec .nextI31 s = .next { s.draw.2 with responses := s.responses ++ [⟨0#1, r.setWidth 64⟩] }
      ∧ r = s.draw.1 >>> 1 ∧ r.toNat = s.draw.1.toNat / 2 ∧ r.toInt = (s.draw.1.toNat / 2 : Nat)
      ∧ r.setWidth 64 = r.signExtend 64)
  ∧ encode .nextI31 = 0x0000000000000011#64
  ∧ resultI31 0#32 = 0#64 ∧ resultI31 1#32 = 0#64 ∧ resultI31 0xFFFFFFFF#32 = 0x7FFFFFFF#64
  ∧ resultI31 0xFFFFFFFE#32 = 0x7FFFFFFF#64 ∧ resultI31 0x80000000#32 = 0x40000000#64
  ∧ ∀ s : State, ∃ t, exec .nextI31 (s.seeded 5489#32) = .next t
      ∧ t.responses = s.responses ++ [⟨0#1, 0x000000006848DDAE#64⟩]

/-- R161: the result of NEXT.I31 lies in [0, 0x7FFFFFFF], and every value there comes from exactly two raw values. -/
def Obligations.NextI31RangeIsTwoToOne : Prop :=
  (∀ y : Word, (resultI31 y).toNat ≤ 0x7FFFFFFF)
    ∧ ∀ r : Nat, r ≤ 0x7FFFFFFF → ∀ y : Word,
      ((resultI31 y).toNat = r ↔ y = BitVec.ofNat 32 (2 * r) ∨ y = BitVec.ofNat 32 (2 * r + 1))

/-- R162: from one state, NEXT.I31's result is NEXT.U32's shifted right by one, and the generators afterwards are the same. -/
def Obligations.NextI31IsNextU32Halved : Prop :=
  ∀ s : State, ∃ t u a b, exec .nextU32 s = .next t ∧ exec .nextI31 s = .next u
    ∧ t.responses = s.responses ++ [⟨0#1, a⟩] ∧ u.responses = s.responses ++ [⟨0#1, b⟩]
    ∧ b = a >>> 1 ∧ SameGenerator t u

/-- R171: `C_DC`, the binary64 value nearest to 1/(2^32 - 1), is 2^-32 + 2^-64, bits 0x3DF0000000100000. -/
def Obligations.DoubleClosedScaleIsTheNearestInverse : Prop :=
  scaleDc = rn64 (Exact.quotient 1 (2 ^ 32 - 1))
    ∧ scaleDc.real.toRat = 1 / 2 ^ 32 + 1 / 2 ^ 64
    ∧ f64bits scaleDc = 0x3DF0000000100000#64

/-- R170: NEXT.DC returns the product u(y)·(2^32 + 1)·2^-64 rounded once to binary64, for every draw; the result is never a
negative zero, subnormal, infinite or a NaN. Its word, the corner values and the example of the rule. -/
def Obligations.NextDcRoundsTheProductOnce : Prop :=
  (∀ s : State,
    exec .nextDc s = .next
      { s.draw.2 with
        responses := s.responses ++ [⟨0#1, f64bits (rn64 ⟨s.draw.1.toNat * (2 ^ 32 + 1), 1, -64⟩)⟩] })
  ∧ (∀ y : Word, resultDc y = f64bits (rn64 ((realOfWord y).mul scaleDc.real))
      ∧ PlainEncoding binary64 (resultDc y).toNat)
  ∧ encode .nextDc = 0x0000000000000012#64
  ∧ resultDc 0#32 = 0x0000000000000000#64 ∧ resultDc 1#32 = 0x3DF0000000100000#64
  ∧ resultDc 0xFFFFFFFF#32 = 0x3FF0000000000000#64 ∧ resultDc 0xFFFFFFFE#32 = 0x3FEFFFFFFFE00000#64
  ∧ resultDc 0x80000400#32 = 0x3FE0000080100000#64
  ∧ ∀ s : State, ∃ t, exec .nextDc (s.seeded 5489#32) = .next t
      ∧ t.responses = s.responses ++ [⟨0#1, 0x3FEA12376B9A1237#64⟩]

/-- R172 items 1 and 2: the result of NEXT.DC lies in [0, 1], is 0 exactly for the draw 0 and 1 exactly for the draw
0xFFFFFFFF, and distinct draws give distinct results. -/
def Obligations.DoubleClosedCoversTheClosedInterval : Prop :=
  (∀ y : Word, ∃ q : ℚ, value64 (resultDc y) = some q ∧ 0 ≤ q ∧ q ≤ 1 ∧ (q = 0 ↔ y = 0#32)
    ∧ (q = 1 ↔ y = 0xFFFFFFFF#32))
  ∧ Function.Injective resultDc

/-- R172 item 3: NEXT.DC's product reading and the rejected quotient reading differ exactly at the ties whose even neighbour
is the lower one. -/
def Obligations.DoubleClosedDiffersFromTheQuotientAtLowerEvenTies : Prop :=
  ∀ y : Word, resultDc y ≠ quotientReading y ↔ ProductIsTie y ∧ LowerNeighbourIsEven y

/-- R173: NEXT.DLC returns u(y)·2^-32 exactly, for every draw, and so never 1. Its word, which is illegal where EXT is absent,
the corner values and the example of the rule. -/
def Obligations.NextDlcIsExact : Prop :=
  (∀ s : State, ∃ (d : Data) (q : ℚ),
    exec .nextDlc s = .next { s.draw.2 with responses := s.responses ++ [⟨0#1, d⟩] }
      ∧ value64 d = some q ∧ q = (s.draw.1.toNat : ℚ) / 2 ^ 32 ∧ 0 ≤ q ∧ q < 1 ∧ d.msb = false)
  ∧ encode .nextDlc = 0x0000000000000013#64
  ∧ decodeWith Config.coreOnly 0x0000000000000013#64 = .illegal .extAbsent
  ∧ f64bits scaleDlc = 0x3DF0000000000000#64
  ∧ resultDlc 0#32 = 0x0000000000000000#64 ∧ resultDlc 0xFFFFFFFF#32 = 0x3FEFFFFFFFE00000#64
  ∧ resultDlc 0x80000000#32 = 0x3FE0000000000000#64
  ∧ ∀ s : State, ∃ t, exec .nextDlc (s.seeded 5489#32) = .next t
      ∧ t.responses = s.responses ++ [⟨0#1, 0x3FEA12376B800000#64⟩]

/-- R174: NEXT.DO returns (2·u(y) + 1)·2^-33 exactly, for every draw; the result lies strictly between 0 and 1. Its word,
which is illegal where EXT is absent, the corner values and the example of the rule. -/
def Obligations.NextDoIsExact : Prop :=
  (∀ s : State, ∃ (d : Data) (q : ℚ),
    exec .nextDo s = .next { s.draw.2 with responses := s.responses ++ [⟨0#1, d⟩] }
      ∧ value64 d = some q ∧ q = (2 * (s.draw.1.toNat : ℚ) + 1) / 2 ^ 33 ∧ 0 < q ∧ q < 1 ∧ d.msb = false)
  ∧ encode .nextDo = 0x0000000000000014#64
  ∧ decodeWith Config.coreOnly 0x0000000000000014#64 = .illegal .extAbsent
  ∧ resultDo 0#32 = 0x3DE0000000000000#64 ∧ resultDo 0xFFFFFFFF#32 = 0x3FEFFFFFFFF00000#64
  ∧ ∀ s : State, ∃ t, exec .nextDo (s.seeded 5489#32) = .next t
      ∧ t.responses = s.responses ++ [⟨0#1, 0x3FEA12376B900000#64⟩]

/-- R190: NEXT.FC returns RN32(u(y))·2^-32 in binary32, for every draw; every draw from 0xFFFFFF80 on gives 1.0. Its word, the
corner values and the example of the rule. -/
def Obligations.NextFcScalesTheRoundedDraw : Prop :=
  (∀ s : State, ∃ b : BitVec 32,
    exec .nextFc s = .next { s.draw.2 with responses := s.responses ++ [⟨0#1, b.setWidth 64⟩] }
      ∧ value32 b = some ((roundedTo24Bits s.draw.1.toNat : ℚ) / 2 ^ 32) ∧ b.msb = false
      ∧ (0xFFFFFF80 ≤ s.draw.1.toNat → b = 0x3F800000#32))
  ∧ encode .nextFc = 0x0000000000000018#64
  ∧ resultFc 0#32 = 0x00000000#64 ∧ resultFc 1#32 = 0x2F800000#64 ∧ resultFc 0xFFFFFF7F#32 = 0x3F7FFFFF#64
  ∧ resultFc 0x01000001#32 = 0x3B800000#64 ∧ resultFc 0x01000000#32 = 0x3B800000#64
  ∧ ∀ s : State, ∃ t, exec .nextFc (s.seeded 5489#32) = .next t
      ∧ t.responses = s.responses ++ [⟨0#1, 0x000000003F5091BB#64⟩]

/-- R191: NEXT.FLC returns RN32(u(y))·2^-32 in binary32, and that is NEXT.FC's result of the same draw, for every draw; every
draw from 0xFFFFFF80 on gives 1.0. Its word, the corner value and the example of the rule. -/
def Obligations.NextFlcEqualsNextFc : Prop :=
  (∀ s : State, ∃ (b : BitVec 32) (t : State),
    exec .nextFlc s = .next t ∧ exec .nextFc s = .next t
      ∧ t = { s.draw.2 with responses := s.responses ++ [⟨0#1, b.setWidth 64⟩] }
      ∧ value32 b = some ((roundedTo24Bits s.draw.1.toNat : ℚ) / 2 ^ 32) ∧ b.msb = false
      ∧ (0xFFFFFF80 ≤ s.draw.1.toNat → b = 0x3F800000#32))
  ∧ encode .nextFlc = 0x0000000000000019#64
  ∧ resultFlc 0#32 = 0#64
  ∧ ∀ s : State, ∃ t, exec .nextFlc (s.seeded 5489#32) = .next t
      ∧ t.responses = s.responses ++ [⟨0#1, 0x000000003F5091BB#64⟩]

/-- R192: NEXT.FO. Below 2^23 the sum with 0.5 is exact; from 2^23 to 2^24 it is a tie and goes to the even neighbour; from
2^24 on the addition returns RN32(u(y)). Every draw from 0xFFFFFF80 on gives 1.0, and no result is below 2^-33. Its word, the
corner values and the example of the rule. -/
def Obligations.NextFoAddsHalfInSinglePrecision : Prop :=
  (∀ s : State, ∃ (b : BitVec 32) (q : ℚ),
    exec .nextFo s = .next { s.draw.2 with responses := s.responses ++ [⟨0#1, b.setWidth 64⟩] }
      ∧ value32 b = some q ∧ b.msb = false ∧ 1 / 2 ^ 33 ≤ q
      ∧ (s.draw.1.toNat < 2 ^ 23 → q = (2 * (s.draw.1.toNat : ℚ) + 1) / 2 ^ 33)
      ∧ (2 ^ 23 ≤ s.draw.1.toNat → s.draw.1.toNat < 2 ^ 24 →
        q = ((s.draw.1.toNat + s.draw.1.toNat % 2 : Nat) : ℚ) / 2 ^ 32)
      ∧ (2 ^ 24 ≤ s.draw.1.toNat → q = (roundedTo24Bits s.draw.1.toNat : ℚ) / 2 ^ 32)
      ∧ (0xFFFFFF80 ≤ s.draw.1.toNat → b = 0x3F800000#32))
  ∧ encode .nextFo = 0x000000000000001A#64
  ∧ resultFo 0#32 = 0x2F000000#64 ∧ resultFo 1#32 = 0x2FC00000#64
  ∧ resultFo 0x00800000#32 = 0x3B000000#64 ∧ resultFo 0x00800001#32 = 0x3B000002#64
  ∧ ∀ s : State, ∃ t, exec .nextFo (s.seeded 5489#32) = .next t
      ∧ t.responses = s.responses ++ [⟨0#1, 0x000000003F5091BB#64⟩]

/-- R194: the intervals the single-precision rules give, and the draws that reach 1.0. -/
def Obligations.SinglePrecisionIntervals : Prop :=
  ∀ y : Word, ∃ qc qlc qo : ℚ,
    value32 ((resultFc y).setWidth 32) = some qc ∧ value32 ((resultFlc y).setWidth 32) = some qlc
      ∧ value32 ((resultFo y).setWidth 32) = some qo
      ∧ 0 ≤ qc ∧ qc ≤ 1 ∧ (qc = 1 ↔ 0xFFFFFF80 ≤ y.toNat)
      ∧ 0 ≤ qlc ∧ qlc ≤ 1 ∧ (qlc = 1 ↔ 0xFFFFFF80 ≤ y.toNat)
      ∧ 1 / 2 ^ 33 ≤ qo ∧ qo ≤ 1 ∧ (qo = 1 ↔ 0xFFFFFF80 ≤ y.toNat)

/-- R210, R211: NEXT.BOOL returns the parity of the draw: 1 where the number of set bits is odd, else 0. That is bit 0 of the
fold by 16, 8, 4, 2 and 1. Its word, which is illegal where EXT is absent, the corner values and the example of the rule. -/
def Obligations.NextBoolIsTheParity : Prop :=
  (∀ s : State,
    exec .nextBool s = .next
      { s.draw.2 with
        responses := s.responses ++ [⟨0#1, if setBits s.draw.1 % 2 = 1 then 1#64 else 0#64⟩] })
  ∧ (∀ y b1 b2 b3 b4 b5 : Word, b1 = y ^^^ (y >>> 16) → b2 = b1 ^^^ (b1 >>> 8) → b3 = b2 ^^^ (b2 >>> 4) →
      b4 = b3 ^^^ (b3 >>> 2) → b5 = b4 ^^^ (b4 >>> 1) → resultBool y = if b5[0] = true then 1#64 else 0#64)
  ∧ encode .nextBool = 0x000000000000001C#64
  ∧ decodeWith Config.coreOnly 0x000000000000001C#64 = .illegal .extAbsent
  ∧ resultBool 0#32 = 0#64 ∧ resultBool 0xFFFFFFFF#32 = 0#64 ∧ resultBool 1#32 = 1#64
  ∧ resultBool 0x80000000#32 = 1#64 ∧ resultBool 0x00010001#32 = 0#64
  ∧ ∀ s : State, ∃ t, exec .nextBool (s.seeded 5489#32) = .next t
      ∧ t.responses = s.responses ++ [⟨0#1, 0x0000000000000000#64⟩]

/-- R87: DATA of the one response of each command, row by row: 0 for SEED, the draw zero-extended for NEXT.U32, a 31-bit
integer whose zero and sign extensions agree for NEXT.I31, a finite binary64 for the doubles, a finite binary32 zero-extended
for the singles, 1 or 0 for NEXT.BOOL (1 for odd parity, R210), and 0 for an illegal word (R221). -/
def Obligations.ResultsFitTheirPlaceInData : Prop :=
  (∀ (i : Instr) (s : State), ∃ (t : State) (d : Data),
    exec i s = .next t ∧ t.responses = s.responses ++ [⟨0#1, d⟩]
      ∧ (∀ seed, i = .seed seed → d = 0#64)
      ∧ (i = .nextU32 → d = s.draw.1.setWidth 64)
      ∧ (i = .nextI31 → ∃ r : Word, r.msb = false ∧ d = r.setWidth 64 ∧ d = r.signExtend 64)
      ∧ (i ∈ [Instr.nextDc, .nextDlc, .nextDo] → ∃ q, value64 d = some q)
      ∧ (i ∈ [Instr.nextFc, .nextFlc, .nextFo] → ∃ (b : BitVec 32) (q : ℚ), d = b.setWidth 64 ∧ value32 b = some q)
      ∧ (i = .nextBool → d = if setBits s.draw.1 % 2 = 1 then 1#64 else 0#64))
  ∧ ∀ (s : State) (w : Command) (rest : List Input) (why : IllegalCause), s.inbox = .command w :: rest →
    decode w = .illegal why → ∃ t, step s = .next t ∧ t.responses = s.responses ++ [⟨1#1, 0#64⟩]

/-- R175: no accessor produces a NaN, an infinity, a subnormal or a negative zero. -/
def Obligations.NoSpecialFloatingPointResult : Prop :=
  ∀ y : Word,
    PlainEncoding binary64 (resultDc y).toNat ∧ PlainEncoding binary64 (resultDlc y).toNat
      ∧ PlainEncoding binary64 (resultDo y).toNat
      ∧ PlainEncoding binary32 (resultFc y).toNat ∧ PlainEncoding binary32 (resultFlc y).toNat
      ∧ PlainEncoding binary32 (resultFo y).toNat

/-- R14: rounding in both formats goes to a nearest datum, and to the even significand where another datum is as near. That
the data here have no upper bound on their exponent, and underflow gradually below the smallest normal number, is the model's
choice, taken from IEEE 754 and not from a rule (PRESUMED, log entry 10); no command comes to either part (R175). -/
def Obligations.RoundingIsToNearestTiesToEven : Prop :=
  ∀ f ∈ [binary64, binary32], ∀ x : Exact, x.den ≠ 0 →
    (f.round x).sig ≤ 2 ^ f.prec
      ∧ ∀ (m : Nat) (e : Int), m < 2 ^ f.prec → f.emin - (f.prec - 1) ≤ e →
        |(f.round x).real.toRat - x.toRat| ≤ |(Datum.mk m e).real.toRat - x.toRat|
          ∧ (|(f.round x).real.toRat - x.toRat| = |(Datum.mk m e).real.toRat - x.toRat| →
            (Datum.mk m e).real.toRat ≠ (f.round x).real.toRat → (f.round x).sig % 2 = 0)

/-- R43, R228: a step of one block leaves every other block unchanged, and is that block's own step. Among the steps are idle
ones, and a step of a block number that is not there, which changes nothing: the model's choices (log entries 4 and 13). -/
def Obligations.BlocksShareNothing : Prop :=
  ∀ (a b : BlockArray) (k : Nat), a.step k = .next b →
    (∀ j, j ≠ k → b.blocks[j]? = a.blocks[j]?)
      ∧ ∀ s, a.blocks[k]? = some s → ∃ t, step s = .next t ∧ b.blocks[k]? = some t

/-- R67, R68: however the commands of several hosts interleave, the block does what it does on the one stream of commands that
the schedule makes of them, and every schedule is a run (R229). That the order is a schedule of turns, and that the turn of a
host with no command left, or of no such host, passes as an idle step and adds nothing to the stream, is the model's choice (log
entry 13, DESIGN CHOICE, and log entry 4). -/
def Obligations.EveryInterleavingIsASerialRun : Prop :=
  ∀ (schedule : List Nat) (p : SharedPort), p.block.inbox = [] →
    ∃ p', p.run schedule = .next p' ∧ p'.block.inbox = []
      ∧ Host.Core.run Sys2Proof.core (serialise schedule p.hosts).length
          { p.block with inbox := (serialise schedule p.hosts).map .command } = .next p'.block

/-- R38, R39, R114: the responses follow from `mt`, `idx` and the inputs alone. Neither the ghost counter nor the responses
already given have any part in them. Among the inputs and the steps are resets with inputs behind them, power cycles and idle
steps, which are the model's readings (log entries 4, 5 and 6). -/
def Obligations.ResponsesFollowFromWordsIndexAndInputs : Prop :=
  ∀ (n : Nat) (s t s' : State), s.mt = t.mt → s.idx = t.idx → s.inbox = t.inbox →
    Host.Core.run Sys2Proof.core n s = .next s' →
    ∃ t' new, Host.Core.run Sys2Proof.core n t = .next t' ∧ s'.mt = t'.mt ∧ s'.idx = t'.idx ∧ s'.inbox = t'.inbox
      ∧ s'.responses = s.responses ++ new ∧ t'.responses = t.responses ++ new

/-- R92, R93: the assembly forms give the spec's words. The lower-case hexadecimal digits of the third line are the model's
choice (log entry 15). -/
def Obligations.AssemblyFormsGiveTheSpecsWords : Prop :=
  assemble "SEED" = some [0x0000157100000001#64]
    ∧ assemble "SEED 5489" = some [0x0000157100000001#64]
    ∧ assemble "seed 0xffffffff ; largest" = some [0xFFFFFFFF00000001#64]
    ∧ assemble "SEED 4294967296" = none
    ∧ assemble "DISCARD" = some [0x0000000000000010#64]
    ∧ assemble ".word64 0x0000000100000010" = some [0x0000000100000010#64]
    ∧ assemble "next.bool" = some [0x000000000000001C#64]

/-- R93, R94: `.rept n` ... `.endr` around commands gives the commands repeated n times, for every n, before any reaches the
block. -/
def Obligations.RepetitionIsExpandedBeforeTheBlock : Prop :=
  ∀ (n : Nat) (before body after : List Command),
    expandLines (before.map .emit ++ .rept n :: body.map .emit ++ .endr :: after.map .emit) [] []
      = some (before ++ (List.replicate n body).flatten ++ after)
end

