-- ==== Sys2Proof/Laws/Fields.lean ====
section
/-! SUPPORT. The fields of a command word and the word of three fields, each undoing the other (R80), and what the parts of the
decoder answer (R85). -/

namespace Sys2Proof

theorem getLsbD_commandWord (a : Word) (r : BitVec 24) (o : BitVec 8) (i : Nat) :
    (commandWord a r o).getLsbD i
      = if i < 8 then o.getLsbD i else if i < 32 then r.getLsbD (i - 8) else a.getLsbD (i - 32) := by
  have ho : ¬ i < 8 → o.getLsbD i = false := fun h => BitVec.getLsbD_of_ge _ _ (by omega)
  have hr : ¬ i < 32 → r.getLsbD (i - 8) = false := fun h => BitVec.getLsbD_of_ge _ _ (by omega)
  have ha : ¬ i < 64 → a.getLsbD (i - 32) = false := fun h => BitVec.getLsbD_of_ge _ _ (by omega)
  have ho' : ¬ i < 64 → o.getLsbD i = false := fun h => BitVec.getLsbD_of_ge _ _ (by omega)
  simp only [commandWord, BitVec.getLsbD_or, BitVec.getLsbD_shiftLeft, BitVec.getLsbD_setWidth]
  by_cases h1 : i < 8
  · simp [h1, show i < 32 by omega, show i < 64 by omega]
  · by_cases h2 : i < 32
    · simp [h1, h2, ho h1, show i < 64 by omega, show i - 8 < 64 by omega]
    · by_cases h3 : i < 64
      · simp [h1, h2, h3, ho h1, hr h2, show i - 32 < 64 by omega]
      · simp [h1, h2, h3, ha h3]

@[simp] theorem opField_commandWord (a : Word) (r : BitVec 24) (o : BitVec 8) : opField (commandWord a r o) = o := by
  apply BitVec.eq_of_getLsbD_eq
  intro i hi
  simp only [opField, BitVec.getLsbD_extractLsb', getLsbD_commandWord]
  simp [hi]

@[simp] theorem rsvField_commandWord (a : Word) (r : BitVec 24) (o : BitVec 8) : rsvField (commandWord a r o) = r := by
  apply BitVec.eq_of_getLsbD_eq
  intro i hi
  simp only [rsvField, BitVec.getLsbD_extractLsb', getLsbD_commandWord]
  simp [hi, show ¬ 8 + i < 8 by omega, show 8 + i < 32 by omega]

@[simp] theorem argField_commandWord (a : Word) (r : BitVec 24) (o : BitVec 8) : argField (commandWord a r o) = a := by
  apply BitVec.eq_of_getLsbD_eq
  intro i hi
  simp only [argField, BitVec.getLsbD_extractLsb', getLsbD_commandWord]
  simp [hi, show ¬ 32 + i < 8 by omega, show ¬ 32 + i < 32 by omega]

theorem commandWord_fields (w : Command) : commandWord (argField w) (rsvField w) (opField w) = w := by
  apply BitVec.eq_of_getLsbD_eq
  intro i hi
  simp only [getLsbD_commandWord, argField, rsvField, opField, BitVec.getLsbD_extractLsb']
  by_cases h1 : i < 8
  · simp [h1]
  · by_cases h2 : i < 32
    · simp [h1, h2, show 8 + (i - 8) = i by omega, show i - 8 < 24 by omega]
    · simp [h1, h2, show 32 + (i - 32) = i by omega, show i - 32 < 32 by omega]

/-- Where an EXT opcode decodes to a command, it is that opcode's and the option is present (R85). -/
theorem decodeExt_legal {cfg : Config} {i j : Instr} (h : decodeExt cfg i = .legal j) :
    j = i ∧ cfg.extAccessors = true := by
  unfold decodeExt at h
  cases hc : cfg.extAccessors <;> rw [hc] at h
  · cases h
  · cases h
    exact ⟨rfl, rfl⟩

/-- Where the `case op` of R85 answers a command, OP is that command's, it has no operand, and the configuration has it. -/
theorem decodeAccessor_legal {cfg : Config} {op : BitVec 8} {i : Instr} (h : decodeAccessor cfg op = .legal i) :
    op = opcode i ∧ operand i = 0#32 ∧ WellFormed cfg i = true := by
  have ext : ∀ {o : BitVec 8} {j : Instr}, op = o → decodeExt cfg j = .legal i → o = opcode j → operand j = 0#32 →
      op = opcode i ∧ operand i = 0#32 ∧ WellFormed cfg i = true := by
    intro o j ho hj h1 h2
    obtain ⟨rfl, hc⟩ := decodeExt_legal hj
    exact ⟨ho.trans h1, h2, by simp [WellFormed, hc]⟩
  unfold decodeAccessor at h
  by_cases h1 : op = 0x10#8
  · rw [if_pos h1] at h; cases h; exact ⟨h1, rfl, rfl⟩
  rw [if_neg h1] at h
  by_cases h2 : op = 0x11#8
  · rw [if_pos h2] at h; cases h; exact ⟨h2, rfl, rfl⟩
  rw [if_neg h2] at h
  by_cases h3 : op = 0x12#8
  · rw [if_pos h3] at h; cases h; exact ⟨h3, rfl, rfl⟩
  rw [if_neg h3] at h
  by_cases h4 : op = 0x13#8
  · rw [if_pos h4] at h; exact ext h4 h rfl rfl
  rw [if_neg h4] at h
  by_cases h5 : op = 0x14#8
  · rw [if_pos h5] at h; exact ext h5 h rfl rfl
  rw [if_neg h5] at h
  by_cases h6 : op = 0x18#8
  · rw [if_pos h6] at h; exact ext h6 h rfl rfl
  rw [if_neg h6] at h
  by_cases h7 : op = 0x19#8
  · rw [if_pos h7] at h; exact ext h7 h rfl rfl
  rw [if_neg h7] at h
  by_cases h8 : op = 0x1A#8
  · rw [if_pos h8] at h; exact ext h8 h rfl rfl
  rw [if_neg h8] at h
  by_cases h9 : op = 0x1C#8
  · rw [if_pos h9] at h; exact ext h9 h rfl rfl
  rw [if_neg h9] at h
  cases h

end Sys2Proof
end

