-- ==== Sys2Proof/Laws/Ieee.lean ====
section
/-! SUPPORT. What rounding and encoding do: the nearest integer and its ties, the exponent of a dyadic value, rounding where
it is exact and where it is not, and the value an encoding stands for. -/

namespace Sys2Proof.Machine

/-! ### The nearest integer -/

theorem roundQuotient_le (n : Nat) {d : Nat} (h : 0 < d) : 2 * n ≤ (2 * roundQuotient n d + 1) * d := by
  have e := Nat.div_add_mod n d
  have hm := Nat.mod_lt n h
  unfold roundQuotient
  split
  · nlinarith
  · split
    · nlinarith
    · have : 0 ≤ n / d % 2 := Nat.zero_le _
      nlinarith [Nat.zero_le (n / d % 2 * d)]

theorem le_roundQuotient (n : Nat) {d : Nat} (h : 0 < d) : 2 * (roundQuotient n d * d) ≤ 2 * n + d := by
  have e : n / d * d + n % d = n := Nat.div_add_mod' n d
  have hm := Nat.mod_lt n h
  unfold roundQuotient
  split
  · omega
  · split
    · rw [Nat.add_mul]; omega
    · have := Nat.mul_le_mul_right d (show n / d % 2 ≤ 1 by omega)
      rw [Nat.add_mul]; omega

/-- At a tie, where the distance to the nearest integer is half, the result is even (R14). -/
theorem roundQuotient_tie {n d : Nat} (h : 2 * (n % d) = d) : roundQuotient n d % 2 = 0 := by
  unfold roundQuotient
  rw [if_neg (by omega), if_neg (by omega)]
  omega

@[simp] theorem roundQuotient_mul (q : Nat) {d : Nat} (h : 0 < d) : roundQuotient (q * d) d = q := by
  simp [roundQuotient, h]

theorem roundQuotient_one (n : Nat) : roundQuotient n 1 = n := by simp [roundQuotient, Nat.mod_one]

/-- A common factor of numerator and denominator does not matter. -/
theorem roundQuotient_cancel (n d : Nat) {c : Nat} (h : 0 < c) : roundQuotient (n * c) (d * c) = roundQuotient n d := by
  unfold roundQuotient
  rw [Nat.mul_div_mul_right _ _ h, Nat.mul_mod_mul_right]
  have h1 : (2 * (n % d * c) < d * c) ↔ (2 * (n % d) < d) := by
    rw [← Nat.mul_assoc]; exact Nat.mul_lt_mul_right h
  have h2 : (d * c < 2 * (n % d * c)) ↔ (d < 2 * (n % d)) := by
    rw [← Nat.mul_assoc]; exact Nat.mul_lt_mul_right h
  simp only [h1, h2]

/-- The nearest integer depends on the quotient alone. -/
theorem roundQuotient_congr {n d n' d' : Nat} (h : 0 < d) (h' : 0 < d') (e : n * d' = n' * d) :
    roundQuotient n d = roundQuotient n' d' := by
  rw [← roundQuotient_cancel n d h', ← roundQuotient_cancel n' d' h, e, Nat.mul_comm d d']

/-! ### Dyadic values -/

theorem log2_mul_two_pow {n : Nat} (h : 0 < n) (k : Nat) : Nat.log2 (n * 2 ^ k) = Nat.log2 n + k := by
  have hk : 0 < 2 ^ k := Nat.two_pow_pos k
  have h1 : 2 ^ Nat.log2 n ≤ n := Nat.log2_self_le (by omega)
  have h2 : n < 2 ^ (Nat.log2 n + 1) := Nat.lt_log2_self
  rw [Nat.log2_eq_iff (by positivity), Nat.pow_add, show Nat.log2 n + k + 1 = (Nat.log2 n + 1) + k by omega, Nat.pow_add]
  exact ⟨Nat.mul_le_mul_right _ h1, Nat.mul_lt_mul_of_pos_right h2 hk⟩

theorem scaled_dyadic (n : Nat) (e k : Int) :
    (Exact.mk n 1 e).scaled k = (n * 2 ^ (e + k).toNat, 2 ^ (-(e + k)).toNat) := by
  simp [Exact.scaled]

/-- The exponent of a dyadic value is the place of its highest bit. -/
theorem floorLog2_dyadic {n : Nat} (h : 0 < n) (e : Int) : (Exact.mk n 1 e).floorLog2 = Nat.log2 n + e := by
  have hL : 2 ^ Nat.log2 n ≤ n := Nat.log2_self_le (by omega)
  have h1 : Nat.log2 1 = 0 := by decide
  unfold Exact.floorLog2
  simp only [h1, scaled_dyadic]
  rw [if_pos]
  · simp
  · have a : (e + -((Nat.log2 n : Int) - ((0 : Nat) : Int) + e)).toNat = 0 := by omega
    have b : (-(e + -((Nat.log2 n : Int) - ((0 : Nat) : Int) + e))).toNat = Nat.log2 n := by omega
    simp only [a, b, Nat.pow_zero, Nat.mul_one]
    exact hL

namespace Format

theorem round_zero (f : Format) (d : Nat) (e : Int) : f.round ⟨0, d, e⟩ = ⟨0, 0⟩ := by simp [round]

/-- Rounding depends on the value alone: powers of two may stand in the integer or in the exponent. -/
theorem round_shift (f : Format) (n k : Nat) (e : Int) : f.round ⟨n * 2 ^ k, 1, e - k⟩ = f.round ⟨n, 1, e⟩ := by
  rcases Nat.eq_zero_or_pos n with rfl | h
  · simp [round]
  have hpos : 0 < n * 2 ^ k := by positivity
  have hu : f.ulpExponent ⟨n * 2 ^ k, 1, e - k⟩ = f.ulpExponent ⟨n, 1, e⟩ := by
    unfold ulpExponent
    rw [floorLog2_dyadic hpos, floorLog2_dyadic h, log2_mul_two_pow h]
    congr 2
    push_cast
    ring
  unfold round
  rw [if_neg (by simp; omega), if_neg (by simp; omega), hu]
  simp only [scaled_dyadic]
  congr 1
  refine roundQuotient_congr (Nat.two_pow_pos _) (Nat.two_pow_pos _) ?_
  simp only [Nat.mul_assoc, ← Nat.pow_add]
  congr 2
  omega

/-- Rounding a dyadic value in the normal range: the highest bit fixes the unit in the last place (R14). -/
theorem round_dyadic (f : Format) {n : Nat} (h : 0 < n) {e : Int} (hn : f.emin ≤ Nat.log2 n + e) :
    f.round ⟨n, 1, e⟩
      = ⟨roundQuotient (n * 2 ^ ((f.prec : Int) - 1 - Nat.log2 n).toNat) (2 ^ ((Nat.log2 n : Int) - ((f.prec : Int) - 1)).toNat),
          Nat.log2 n + e - ((f.prec : Int) - 1)⟩ := by
  have hk : f.ulpExponent ⟨n, 1, e⟩ = Nat.log2 n + e - ((f.prec : Int) - 1) := by
    rw [ulpExponent, floorLog2_dyadic h, max_eq_left hn]
  unfold round
  rw [if_neg (by simp; omega)]
  simp only [hk, scaled_dyadic]
  congr 5 <;> omega

/-- Rounding is exact where the significand has room for every bit. -/
theorem round_exact (f : Format) {n : Nat} (h : 0 < n) {e : Int} (hn : f.emin ≤ Nat.log2 n + e)
    (hp : Nat.log2 n < f.prec) :
    f.round ⟨n, 1, e⟩ = ⟨n * 2 ^ (f.prec - 1 - Nat.log2 n), Nat.log2 n + e - ((f.prec : Int) - 1)⟩ := by
  rw [round_dyadic f h hn]
  have a : ((Nat.log2 n : Int) - ((f.prec : Int) - 1)).toNat = 0 := by omega
  have b : ((f.prec : Int) - 1 - Nat.log2 n).toNat = f.prec - 1 - Nat.log2 n := by omega
  rw [a, b, Nat.pow_zero, roundQuotient_one]

/-- Rounding drops the bits below the last place of the significand, to nearest, ties to even. -/
theorem round_inexact (f : Format) {n : Nat} (h : 0 < n) {e : Int} (hn : f.emin ≤ Nat.log2 n + e)
    (hp : f.prec ≤ Nat.log2 n + 1) :
    f.round ⟨n, 1, e⟩
      = ⟨roundQuotient n (2 ^ (Nat.log2 n + 1 - f.prec)), Nat.log2 n + e - ((f.prec : Int) - 1)⟩ := by
  rw [round_dyadic f h hn]
  have a : ((Nat.log2 n : Int) - ((f.prec : Int) - 1)).toNat = Nat.log2 n + 1 - f.prec := by omega
  have b : ((f.prec : Int) - 1 - Nat.log2 n).toNat = 0 := by omega
  rw [a, b, Nat.pow_zero, Nat.mul_one]

/-! ### Encodings -/

/-- The encoding of a normal datum: exponent field and fraction. -/
theorem encode_normal (f : Format) {d : Datum} (hs : 0 < d.sig) (hp : d.sig ≤ 2 ^ f.prec) (h1 : 1 ≤ f.prec)
    (hlo : f.emin ≤ Nat.log2 d.sig + d.exp) (hhi : Nat.log2 d.sig + d.exp ≤ f.emax) :
    ∃ frac, frac < 2 ^ (f.prec - 1)
      ∧ f.encode d = (Nat.log2 d.sig + d.exp + f.bias).toNat * 2 ^ (f.prec - 1) + frac
      ∧ (2 ^ (f.prec - 1) + frac) * 2 ^ Nat.log2 d.sig = d.sig * 2 ^ (f.prec - 1) := by
  have hL1 : 2 ^ Nat.log2 d.sig ≤ d.sig := Nat.log2_self_le (by omega)
  have hL2 : d.sig < 2 ^ (Nat.log2 d.sig + 1) := Nat.lt_log2_self
  have hLp : 0 < 2 ^ Nat.log2 d.sig := Nat.two_pow_pos _
  have hdvd : 2 ^ Nat.log2 d.sig ∣ d.sig * 2 ^ (f.prec - 1) := by
    by_cases hc : Nat.log2 d.sig ≤ f.prec - 1
    · exact Dvd.dvd.mul_left (Nat.pow_dvd_pow 2 hc) _
    · have : Nat.log2 d.sig ≤ f.prec := by
        by_contra hcc
        have : 2 ^ f.prec < 2 ^ Nat.log2 d.sig := Nat.pow_lt_pow_right (by omega) (by omega)
        omega
      have e : Nat.log2 d.sig = f.prec := by omega
      have : d.sig = 2 ^ Nat.log2 d.sig := by rw [e] at hL1 ⊢; omega
      exact Dvd.dvd.mul_right (by rw [← this]) _
  obtain ⟨q, hq⟩ := hdvd
  have hqe : d.sig * 2 ^ (f.prec - 1) / 2 ^ Nat.log2 d.sig = q := by rw [hq, Nat.mul_div_cancel_left _ hLp]
  have hq1 : 2 ^ (f.prec - 1) ≤ q := by
    rw [← hqe, Nat.le_div_iff_mul_le hLp, Nat.mul_comm]
    exact Nat.mul_le_mul_right _ hL1
  have hq2 : q < 2 * 2 ^ (f.prec - 1) := by
    rw [← hqe, Nat.div_lt_iff_lt_mul hLp]
    calc d.sig * 2 ^ (f.prec - 1) < 2 ^ (Nat.log2 d.sig + 1) * 2 ^ (f.prec - 1) :=
          Nat.mul_lt_mul_of_pos_right hL2 (Nat.two_pow_pos _)
      _ = 2 * 2 ^ (f.prec - 1) * 2 ^ Nat.log2 d.sig := by rw [Nat.pow_succ]; ring
  refine ⟨q - 2 ^ (f.prec - 1), by omega, ?_, ?_⟩
  · unfold encode
    rw [if_neg (by omega)]
    simp only
    rw [if_neg (by omega), if_neg (by omega), hqe]
  · rw [Nat.add_sub_cancel' hq1, Nat.mul_comm, ← hq]

/-- A normal encoding read back: its three fields. -/
theorem fields_of_normal (f : Format) {ex frac : Nat} (hf : frac < 2 ^ (f.prec - 1)) (he : ex < 2 ^ f.expBits) :
    f.fractionOf (ex * 2 ^ (f.prec - 1) + frac) = frac ∧ f.exponentOf (ex * 2 ^ (f.prec - 1) + frac) = ex
      ∧ f.signOf (ex * 2 ^ (f.prec - 1) + frac) = 0 := by
  have hp : 0 < 2 ^ (f.prec - 1) := Nat.two_pow_pos _
  have hdiv : (ex * 2 ^ (f.prec - 1) + frac) / 2 ^ (f.prec - 1) = ex := by
    rw [Nat.add_comm, Nat.add_mul_div_right _ _ hp, Nat.div_eq_of_lt hf, Nat.zero_add]
  refine ⟨?_, ?_, ?_⟩
  · rw [fractionOf, Nat.add_comm, Nat.add_mul_mod_self_right, Nat.mod_eq_of_lt hf]
  · rw [exponentOf, hdiv, Nat.mod_eq_of_lt he]
  · rw [signOf, Nat.pow_add, ← Nat.div_div_eq_div_mul, hdiv, Nat.div_eq_of_lt he]

/-- The encoding of a normal datum stands for that datum, and its sign and exponent fields are those of a positive normal
number (R14). -/
theorem value_encode (f : Format) {d : Datum} (hs : 0 < d.sig) (hp : d.sig ≤ 2 ^ f.prec) (h1 : 1 ≤ f.prec)
    (hlo : f.emin ≤ Nat.log2 d.sig + d.exp) (hhi : Nat.log2 d.sig + d.exp ≤ f.emax)
    (hb1 : 1 ≤ f.emin + f.bias) (hb2 : f.emax + f.bias + 1 < 2 ^ f.expBits) :
    f.value (f.encode d) = some d.real.toRat ∧ f.signOf (f.encode d) = 0
      ∧ f.exponentOf (f.encode d) = (Nat.log2 d.sig + d.exp + f.bias).toNat
      ∧ f.encode d < 2 ^ f.expBits * 2 ^ (f.prec - 1) := by
  obtain ⟨frac, hfr, henc, hval⟩ := f.encode_normal hs hp h1 hlo hhi
  generalize hex : (Nat.log2 d.sig + d.exp + f.bias).toNat = ex at *
  have hexi : (ex : Int) = Nat.log2 d.sig + d.exp + f.bias := by omega
  have hlt : ex + 1 < 2 ^ f.expBits := by
    have : ((ex + 1 : Nat) : Int) < ((2 ^ f.expBits : Nat) : Int) := by push_cast; omega
    exact_mod_cast this
  obtain ⟨a, b, c⟩ := f.fields_of_normal hfr (show ex < 2 ^ f.expBits by omega)
  rw [henc]
  refine ⟨?_, c, b, ?_⟩
  · unfold value
    rw [a, b, c, if_neg (by omega)]
    simp only
    rw [if_neg (by omega)]
    congr 1
    have hv : ((2 ^ (f.prec - 1) + frac : Nat) : ℚ) * 2 ^ Nat.log2 d.sig = d.sig * 2 ^ (f.prec - 1) := by
      exact_mod_cast hval
    have hz : ((ex : Int) - f.bias - ((f.prec : Int) - 1)) = (Nat.log2 d.sig : Int) + d.exp - ((f.prec - 1 : Nat) : Int) := by
      omega
    rw [hz, zpow_sub₀ (by norm_num), zpow_add₀ (by norm_num), zpow_natCast, zpow_natCast]
    have hpp : (2 : ℚ) ^ (f.prec - 1) ≠ 0 := by positivity
    simp only [Datum.real, Exact.toRat]
    field_simp
    push_cast at hv ⊢
    linear_combination hv
  · calc ex * 2 ^ (f.prec - 1) + frac < ex * 2 ^ (f.prec - 1) + 2 ^ (f.prec - 1) := by omega
      _ = (ex + 1) * 2 ^ (f.prec - 1) := by ring
      _ ≤ 2 ^ f.expBits * 2 ^ (f.prec - 1) := Nat.mul_le_mul_right _ (by omega)

end Format

theorem toNat_f64bits {d : Datum} (h : binary64.encode d < 2 ^ 64) : (f64bits d).toNat = binary64.encode d := by
  simp only [f64bits, BitVec.toNat_ofNat]
  exact Nat.mod_eq_of_lt h

theorem toNat_f32bits {d : Datum} (h : binary32.encode d < 2 ^ 32) : (f32bits d).toNat = binary32.encode d := by
  simp only [f32bits, BitVec.toNat_ofNat]
  exact Nat.mod_eq_of_lt h

/-- The encoding of a normal binary64 datum stands for that datum (R14). -/
theorem value64_f64bits {d : Datum} (hs : 0 < d.sig) (hp : d.sig ≤ 2 ^ 53)
    (hlo : -1022 ≤ Nat.log2 d.sig + d.exp) (hhi : Nat.log2 d.sig + d.exp ≤ 1023) :
    value64 (f64bits d) = some d.real.toRat := by
  obtain ⟨h1, -, -, h4⟩ := binary64.value_encode hs hp (by decide) hlo hhi (by decide) (by decide)
  have hlt : binary64.encode d < 2 ^ 64 :=
    lt_of_lt_of_le h4 (by show 2 ^ 11 * 2 ^ 52 ≤ 2 ^ 64; decide)
  rw [value64, toNat_f64bits hlt, h1]

/-- The encoding of a normal binary32 datum stands for that datum (R14). -/
theorem value32_f32bits {d : Datum} (hs : 0 < d.sig) (hp : d.sig ≤ 2 ^ 24)
    (hlo : -126 ≤ Nat.log2 d.sig + d.exp) (hhi : Nat.log2 d.sig + d.exp ≤ 127) :
    value32 (f32bits d) = some d.real.toRat := by
  obtain ⟨h1, -, -, h4⟩ := binary32.value_encode hs hp (by decide) hlo hhi (by decide) (by decide)
  have hlt : binary32.encode d < 2 ^ 32 :=
    lt_of_lt_of_le h4 (by show 2 ^ 8 * 2 ^ 23 ≤ 2 ^ 32; decide)
  rw [value32, toNat_f32bits hlt, h1]

theorem value64_zero : value64 0#64 = some 0 := by
  simp [value64, Format.value, Format.exponentOf, Format.fractionOf, binary64]

theorem value32_zero : value32 0#32 = some 0 := by
  simp [value32, Format.value, Format.exponentOf, Format.fractionOf, binary32]

end Sys2Proof.Machine
end

