-- ==== Sys2Proof/Laws/State.lean ====
section
/-! SUPPORT. One lemma for each field of the state after each update, and what the first part of `Draw()` does to each field. -/

namespace Sys2Proof.Machine.State

@[simp] theorem seeded_mt (s : State) (v : Word) : (s.seeded v).mt = initWords v := rfl
@[simp] theorem seeded_idx (s : State) (v : Word) : (s.seeded v).idx = 624 := rfl
@[simp] theorem seeded_draws (s : State) (v : Word) : (s.seeded v).draws = 0 := rfl
@[simp] theorem seeded_inbox (s : State) (v : Word) : (s.seeded v).inbox = s.inbox := rfl
@[simp] theorem seeded_responses (s : State) (v : Word) : (s.seeded v).responses = s.responses := rfl

@[simp] theorem takeReset_mt (s : State) : (s.takeReset).mt = initWords Config.defaultSeed := rfl
@[simp] theorem takeReset_idx (s : State) : (s.takeReset).idx = 624 := rfl
@[simp] theorem takeReset_draws (s : State) : (s.takeReset).draws = 0 := rfl
@[simp] theorem takeReset_inbox (s : State) : (s.takeReset).inbox = s.inbox := rfl
@[simp] theorem takeReset_responses (s : State) : (s.takeReset).responses = s.responses := rfl

@[simp] theorem takePowerCycle_mt (s : State) : (s.takePowerCycle).mt = initWords Config.defaultSeed := rfl
@[simp] theorem takePowerCycle_idx (s : State) : (s.takePowerCycle).idx = 624 := rfl
@[simp] theorem takePowerCycle_draws (s : State) : (s.takePowerCycle).draws = 0 := rfl
@[simp] theorem takePowerCycle_inbox (s : State) : (s.takePowerCycle).inbox = s.inbox := rfl
@[simp] theorem takePowerCycle_responses (s : State) : (s.takePowerCycle).responses = s.responses := rfl

@[simp] theorem respond_mt (s : State) (e : BitVec 1) (d : Data) : (s.respond e d).mt = s.mt := rfl
@[simp] theorem respond_idx (s : State) (e : BitVec 1) (d : Data) : (s.respond e d).idx = s.idx := rfl
@[simp] theorem respond_draws (s : State) (e : BitVec 1) (d : Data) : (s.respond e d).draws = s.draws := rfl
@[simp] theorem respond_inbox (s : State) (e : BitVec 1) (d : Data) : (s.respond e d).inbox = s.inbox := rfl
@[simp] theorem respond_responses (s : State) (e : BitVec 1) (d : Data) : (s.respond e d).responses = s.responses ++ [⟨e, d⟩] := rfl

@[simp] theorem takeIllegal_mt (s : State) : (s.takeIllegal).mt = s.mt := rfl
@[simp] theorem takeIllegal_idx (s : State) : (s.takeIllegal).idx = s.idx := rfl
@[simp] theorem takeIllegal_draws (s : State) : (s.takeIllegal).draws = s.draws := rfl
@[simp] theorem takeIllegal_inbox (s : State) : (s.takeIllegal).inbox = s.inbox := rfl
@[simp] theorem takeIllegal_responses (s : State) : (s.takeIllegal).responses = s.responses ++ [⟨errIllegal, dataNone⟩] := rfl

@[simp] theorem present_mt (s : State) (x : Input) : (s.present x).mt = s.mt := rfl
@[simp] theorem present_idx (s : State) (x : Input) : (s.present x).idx = s.idx := rfl
@[simp] theorem present_draws (s : State) (x : Input) : (s.present x).draws = s.draws := rfl
@[simp] theorem present_inbox (s : State) (x : Input) : (s.present x).inbox = s.inbox ++ [x] := rfl
@[simp] theorem present_responses (s : State) (x : Input) : (s.present x).responses = s.responses := rfl

theorem refill_of_exhausted {s : State} (h : s.idx = 624) : s.refill = { s with mt := twist s.mt, idx := 0 } := by
  simp [refill, h]

theorem refill_of_remaining {s : State} (h : s.idx ≠ 624) : s.refill = s := by
  have : s.idx.val ≠ 624 := fun e => h (Fin.ext e)
  simp [refill, this]

@[simp] theorem refill_draws (s : State) : s.refill.draws = s.draws := by unfold refill; split <;> rfl
@[simp] theorem refill_inbox (s : State) : s.refill.inbox = s.inbox := by unfold refill; split <;> rfl
@[simp] theorem refill_responses (s : State) : s.refill.responses = s.responses := by unfold refill; split <;> rfl

@[simp] theorem afterDraw_mt (s : State) : s.afterDraw.mt = s.refill.mt := rfl
@[simp] theorem afterDraw_idx_val (s : State) : s.afterDraw.idx.val = s.refill.idx.val + 1 := rfl
@[simp] theorem afterDraw_draws (s : State) : s.afterDraw.draws = s.draws + 1 := rfl
@[simp] theorem afterDraw_inbox (s : State) : s.afterDraw.inbox = s.inbox := by simp [afterDraw]
@[simp] theorem afterDraw_responses (s : State) : s.afterDraw.responses = s.responses := by simp [afterDraw]

@[simp] theorem draw_fst (s : State) : s.draw.1 = s.drawnWord := rfl
@[simp] theorem draw_snd (s : State) : s.draw.2 = s.afterDraw := rfl

end Sys2Proof.Machine.State
end

