-- ==== Sys2Proof/Laws/Ops.lean ====
section
/-! SUPPORT. What each shared operation and each step can do, said once: the lemmas later proofs cite instead of unfolding
`exec` or `step`. -/

namespace Sys2Proof.Machine

@[simp] theorem runAccessor_eq (result : Word → Data) (s : State) :
    runAccessor result s = .next (s.afterDraw.respond errOk (result s.drawnWord)) := rfl

@[simp] theorem core_step (s : State) : Host.Core.step Sys2Proof.core s = step s := rfl

theorem run_zero (s : State) : Host.Core.run Sys2Proof.core 0 s = .next s := rfl

theorem run_succ_of (M : Host.Core) (n : Nat) {s t : M.State} (h : M.step s = .next t) :
    M.run (n + 1) s = M.run n t := by
  simp [Host.Core.run, h]

theorem run_succ_next_of (M : Host.Core) {n : Nat} {s u : M.State} (h : M.run (n + 1) s = .next u) :
    ∃ t, M.step s = .next t ∧ M.run n t = .next u := by
  cases hs : M.step s with
  | next t => exact ⟨t, rfl, (run_succ_of M n hs).symm.trans h⟩
  | fault r => simp [Host.Core.run, hs] at h
  | refused r => simp [Host.Core.run, hs] at h

theorem run_succ (n : Nat) {s t : State} (h : step s = .next t) :
    Host.Core.run Sys2Proof.core (n + 1) s = Host.Core.run Sys2Proof.core n t :=
  run_succ_of Sys2Proof.core n h

/-- A run that ends in a state has a first step (a run of no steps apart). -/
theorem run_succ_next {n : Nat} {s u : State} (h : Host.Core.run Sys2Proof.core (n + 1) s = .next u) :
    ∃ t, step s = .next t ∧ Host.Core.run Sys2Proof.core n t = .next u :=
  run_succ_next_of Sys2Proof.core h

theorem stepWith_idle (cfg : Config) {s : State} (h : s.inbox = []) : stepWith cfg s = .next s := by
  simp [stepWith, State.takeInput, h]

theorem stepWith_input (cfg : Config) {s : State} {x : Input} {rest : List Input} (h : s.inbox = x :: rest) :
    stepWith cfg s = runInput cfg x { s with inbox := rest } := by
  simp [stepWith, State.takeInput, h]

theorem runCommand_illegal {cfg : Config} {w : Command} {why : IllegalCause} (h : decodeWith cfg w = .illegal why)
    (s : State) : runCommand cfg w s = .next s.takeIllegal := by
  simp [runCommand, h]

theorem runCommand_legal {cfg : Config} {w : Command} {i : Instr} (h : decodeWith cfg w = .legal i)
    (s : State) : runCommand cfg w s = exec i s := by
  simp [runCommand, h]

/-- Everything a command can do: SEED seeds and responds, an accessor draws once and responds. -/
theorem exec_cases (i : Instr) (s : State) :
    (∃ v, i = .seed v ∧ exec i s = .next ((s.seeded v).respond errOk dataNone))
      ∨ (i.isAccessor = true ∧ ∃ d, exec i s = .next (s.afterDraw.respond errOk d)) := by
  cases i with
  | seed v => exact .inl ⟨v, rfl, rfl⟩
  | _ => exact .inr ⟨rfl, _, rfl⟩

/-- Everything a step of a block can do. -/
theorem stepWith_cases (cfg : Config) (s : State) :
    (s.inbox = [] ∧ stepWith cfg s = .next s)
      ∨ ∃ x rest, s.inbox = x :: rest ∧
        ((∃ w why, x = .command w ∧ decodeWith cfg w = .illegal why
            ∧ stepWith cfg s = .next ({ s with inbox := rest } : State).takeIllegal)
          ∨ (∃ w i, x = .command w ∧ decodeWith cfg w = .legal i
            ∧ stepWith cfg s = exec i { s with inbox := rest })
          ∨ ((x = .reset ∨ x = .powerCycle ∨ ∃ w, x = .resetDuring w)
            ∧ stepWith cfg s = .next ({ s with inbox := rest } : State).takeReset)
          ∨ (∃ width bits, x = .partialTransfer width bits ∧ stepWith cfg s = .refused .partialTransfer)) := by
  cases hin : s.inbox with
  | nil => exact .inl ⟨rfl, stepWith_idle cfg hin⟩
  | cons x rest =>
    refine .inr ⟨x, rest, rfl, ?_⟩
    rw [stepWith_input cfg hin]
    cases x with
    | command w =>
      cases hd : decodeWith cfg w with
      | illegal why => exact .inl ⟨w, why, rfl, hd, runCommand_illegal hd _⟩
      | legal i => exact .inr (.inl ⟨w, i, rfl, hd, runCommand_legal hd _⟩)
    | reset => exact .inr (.inr (.inl ⟨.inl rfl, rfl⟩))
    | powerCycle => exact .inr (.inr (.inl ⟨.inr (.inl rfl), rfl⟩))
    | resetDuring w => exact .inr (.inr (.inl ⟨.inr (.inr ⟨w, rfl⟩), rfl⟩))
    | partialTransfer width bits => exact .inr (.inr (.inr ⟨width, bits, rfl, rfl⟩))

end Sys2Proof.Machine
end

