-- ==== Sys2Proof/Laws/PerInstr.lean ====
section
/-! SUPPORT. For each command, the row of the opcode table that its encoding matches (R84): the per-instruction family
`TableRow`. -/

namespace Sys2Proof.Laws.TableRow

/-- The command's word matches a row of the opcode table that has its mnemonic and its option (R84). -/
def Statement (i : Instr) : Prop :=
  ∃ row ∈ opcodeTable, row.mnemonic = i.mnemonic ∧ row.ext = i.isExt ∧ encode i &&& row.bitsMask = row.bitsMatch

theorem seed (s : Word) : Statement (.seed s) := by
  refine ⟨⟨"SEED", 0x0000000000000001#64, 0x00000000FFFFFFFF#64, false⟩, by decide, rfl, rfl, ?_⟩
  show commandWord s 0#24 1#8 &&& 0x00000000FFFFFFFF#64 = 1#64
  rw [show 0x00000000FFFFFFFF#64 = commandWord 0#32 (BitVec.allOnes 24) (BitVec.allOnes 8) by decide,
    show 1#64 = commandWord 0#32 0#24 1#8 by decide]
  apply BitVec.eq_of_getLsbD_eq
  intro i hi
  rw [BitVec.getLsbD_and]
  simp only [getLsbD_commandWord]
  split
  · rename_i h
    rw [BitVec.getLsbD_allOnes, decide_eq_true h, Bool.and_true]
  · split <;> simp

theorem nextU32 : Statement .nextU32 := by unfold Statement; decide
theorem nextI31 : Statement .nextI31 := by unfold Statement; decide
theorem nextDc : Statement .nextDc := by unfold Statement; decide
theorem nextDlc : Statement .nextDlc := by unfold Statement; decide
theorem nextDo : Statement .nextDo := by unfold Statement; decide
theorem nextFc : Statement .nextFc := by unfold Statement; decide
theorem nextFlc : Statement .nextFlc := by unfold Statement; decide
theorem nextFo : Statement .nextFo := by unfold Statement; decide
theorem nextBool : Statement .nextBool := by unfold Statement; decide

end Sys2Proof.Laws.TableRow
end

