-- ==== Sys2Proof/Laws/Scales.lean ====
section
/-! SUPPORT. The scaling constants as data (R171, R173, R193), and the exact products they make with a dyadic value. -/

namespace Sys2Proof.Machine

/-- `C_DC` is 2^-32 + 2^-64 (R171). -/
theorem scaleDc_eq : scaleDc = ⟨2 ^ 52 + 2 ^ 20, -84⟩ := by decide +kernel

/-- `C_LC` is 2^-32 (R173). -/
theorem scaleDlc_eq : scaleDlc = ⟨2 ^ 52, -84⟩ := by decide +kernel

/-- The constant of nextFloatClosed is 2^-32 (R193). -/
theorem scaleFc_eq : scaleFc = ⟨2 ^ 23, -55⟩ := by decide +kernel

/-- The constant of nextFloatLeftClosed and nextFloatOpen is 2^-32 (R193). -/
theorem scaleFlc_eq : scaleFlc = ⟨2 ^ 23, -55⟩ := by decide +kernel

@[simp] theorem mul_dyadic (m n : Nat) (d e : Int) : (Exact.mk m 1 d).mul (Exact.mk n 1 e) = ⟨m * n, 1, d + e⟩ := rfl

@[simp] theorem Datum.real_mk (m : Nat) (e : Int) : (Datum.mk m e).real = ⟨m, 1, e⟩ := rfl

@[simp] theorem realOfWord_eq (y : Word) : realOfWord y = ⟨y.toNat, 1, 0⟩ := rfl

end Sys2Proof.Machine
end

