-- ==== Sys2Proof/Laws/Twister.lean ====
section
/-! SUPPORT. What the seeding and the twist do to each word: the seeded words one by one, and for the in-place twist which
words a step leaves alone, which words the first steps have already made final, and the value a step writes. -/

namespace Sys2Proof.Machine

theorem wordAt_of_lt (mt : StateWords) {i : Nat} (h : i < 624) : wordAt mt i = mt[i] := by
  simp [wordAt, Nat.mod_eq_of_lt h]

@[simp] theorem wordAt_mod (mt : StateWords) (i : Nat) : wordAt mt (i % 624) = wordAt mt i := by
  simp [wordAt]

theorem wordAt_congr (mt : StateWords) {i j : Nat} (h : i % 624 = j % 624) : wordAt mt i = wordAt mt j := by
  simp [wordAt, h]

theorem words_ext {a b : StateWords} (h : ∀ i, i < 624 → wordAt a i = wordAt b i) : a = b := by
  apply Vector.ext
  intro i hi
  rw [← wordAt_of_lt a hi, ← wordAt_of_lt b hi]
  exact h i hi

theorem wordAt_initWords (s : Word) {i : Nat} (h : i < 624) : wordAt (initWords s) i = initWord s i := by
  rw [wordAt_of_lt _ h]
  unfold initWords
  rw [Vector.getElem_mk, List.getElem_toArray, List.getElem_map, List.getElem_range]

theorem initWord_succ (s : Word) (i : Nat) :
    initWord s (i + 1)
      = Config.seedMultiplier * (initWord s i ^^^ (initWord s i >>> 30)) + BitVec.ofNat 32 (i + 1) := rfl

/-- The value step `i` of the twist writes, from the words as they then stand (R135). -/
theorem wordAt_twistStep_self (mt : StateWords) {i : Nat} (h : i < 624) :
    wordAt (twistStep i mt) i
      = wordAt mt (i + 397) ^^^ twistA (mixWords (wordAt mt i) (wordAt mt (i + 1))) := by
  rw [wordAt_of_lt _ h]
  simp [twistStep, Nat.mod_eq_of_lt h]

/-- Step `i` of the twist leaves every other word alone. -/
theorem wordAt_twistStep_ne (mt : StateWords) {i j : Nat} (hi : i < 624) (hj : j < 624) (h : i ≠ j) :
    wordAt (twistStep i mt) j = wordAt mt j := by
  rw [wordAt_of_lt _ hj, wordAt_of_lt _ hj]
  simp [twistStep, Nat.mod_eq_of_lt hi, h]

/-- The first `k` steps leave the words from `k` on as they were (R134). -/
theorem wordAt_twistUpTo_of_ge (mt : StateWords) {k j : Nat} (hj : j < 624) (h : k ≤ j) :
    wordAt (twistUpTo k mt) j = wordAt mt j := by
  induction k with
  | zero => rw [twistUpTo]
  | succ k ih => rw [twistUpTo, wordAt_twistStep_ne _ (by omega) hj (by omega), ih (by omega)]

/-- Steps after step `j` leave word `j` alone: it is final (R134). -/
theorem wordAt_twistUpTo_final (mt : StateWords) {k j : Nat} (hk : k ≤ 624) (h : j < k) :
    wordAt (twistUpTo k mt) j = wordAt (twistUpTo (j + 1) mt) j := by
  induction k with
  | zero => omega
  | succ k ih =>
    by_cases hjk : j = k
    · rw [hjk]
    · rw [twistUpTo, wordAt_twistStep_ne _ (by omega) (by omega) (by omega), ih (by omega) (by omega)]

/-- A word of the finished twist is the one its own step wrote (R134). -/
theorem wordAt_twist (mt : StateWords) {j : Nat} (h : j < 624) :
    wordAt (twist mt) j = wordAt (twistUpTo (j + 1) mt) j := by
  unfold twist
  exact wordAt_twistUpTo_final mt (Nat.le_refl 624) h

end Sys2Proof.Machine
end

