-- ==== Sys2Proof/Laws/Stream.lean ====
section
/-! SUPPORT. Being on the stream of a seed (R139): where a seeding starts it, and that one `Draw()` keeps it and returns the
next word of it. -/

namespace Sys2Proof.Safety

open Sys2Proof.Machine

theorem onStream_start {v : Word} {s : State} (h1 : s.mt = initWords v) (h2 : s.idx = 624) (h3 : s.draws = 0) :
    OnStream v s :=
  ⟨by rw [h1, h3]; rfl, by rw [h2, h3]; rfl⟩

theorem twistsAfter_succ_of_exhausted {n : Nat} (h : 624 + 624 * twistsAfter n = n + 624) :
    twistsAfter (n + 1) = twistsAfter n + 1 := by
  unfold twistsAfter at *
  omega

theorem twistsAfter_succ_of_remaining {n k : Nat} (hk : k < 624) (h : k + 624 * twistsAfter n = n + 624) :
    twistsAfter (n + 1) = twistsAfter n := by
  unfold twistsAfter at *
  omega

theorem streamWord_block (v : Word) (t : Nat) {i : Nat} (h : i < 624) :
    streamWord v (624 * t + i) = wordAt (twistedWords v t) i := by
  unfold streamWord
  rw [show (624 * t + i) / 624 = t by omega, show (624 * t + i) % 624 = i by omega]

theorem onStream_afterDraw {v : Word} {s : State} (h : OnStream v s) : OnStream v s.afterDraw := by
  obtain ⟨h1, h2⟩ := h
  have hlt := s.idx.isLt
  by_cases hi : s.idx = 624
  · have e := State.refill_of_exhausted hi
    have hv : s.idx.val = 624 := by rw [hi]; rfl
    have ht := twistsAfter_succ_of_exhausted (n := s.draws) (by omega)
    refine ⟨?_, ?_⟩
    · simp [e, ht, twistedWords, ← h1]
    · simp [e, ht]
      omega
  · have e := State.refill_of_remaining hi
    have hv : s.idx.val ≠ 624 := fun h => hi (Fin.ext h)
    have ht := twistsAfter_succ_of_remaining (by omega) h2
    refine ⟨?_, ?_⟩
    · simp [e, ht, ← h1]
    · simp [e, ht]
      omega

theorem drawnWord_of_onStream {v : Word} {s : State} (h : OnStream v s) : s.drawnWord = rawDraw v (s.draws + 1) := by
  obtain ⟨h1, h2⟩ := h
  have hlt := s.idx.isLt
  unfold rawDraw
  by_cases hi : s.idx = 624
  · have e := State.refill_of_exhausted hi
    have hv : s.idx.val = 624 := by rw [hi]; rfl
    rw [show 623 + (s.draws + 1) = 624 * (twistsAfter s.draws + 1) + 0 by omega, streamWord_block v _ (by omega),
      twistedWords, ← h1]
    simp only [State.drawnWord, e]
    rfl
  · have e := State.refill_of_remaining hi
    have hv : s.idx.val ≠ 624 := fun h => hi (Fin.ext h)
    rw [show 623 + (s.draws + 1) = 624 * twistsAfter s.draws + s.idx.val by omega, streamWord_block v _ (by omega), ← h1,
      wordAt_of_lt _ (by omega)]
    simp only [State.drawnWord, e]

end Sys2Proof.Safety
end

