-- ==== Sys2Proof/Tests/Slice0.lean ====
section
/-! SUPPORT. The model's own tests: words written out from the spec's encodings, the spec's vectors (spec/95_test_vectors.md,
named by their ids) on single operations and steps, and a witness for the hypotheses of each statement. -/

namespace Sys2Proof.Tests

open Sys2Proof.Machine Sys2Proof.Safety

/-! ### Well-formedness -/

/-- R90 item 3: the one check refuses an EXT command where the option set is absent. -/
theorem test_wellFormed_refuses_ext : WellFormed Config.coreOnly .nextBool = false := by decide

theorem test_wellFormed_accepts_core : WellFormed Config.coreOnly .nextDc = true := by decide

/-! ### Decoding: the bits of R80, ARG, RSV and OP, written out for each command -/

theorem test_decode_seed :
    decode 0b0000000000000000000101010111000100000000000000000000000000000001#64 = .legal (.seed 5489#32) := by decide
theorem test_decode_nextU32 :
    decode 0b0000000000000000000000000000000000000000000000000000000000010000#64 = .legal .nextU32 := by decide
theorem test_decode_nextI31 :
    decode 0b0000000000000000000000000000000000000000000000000000000000010001#64 = .legal .nextI31 := by decide
theorem test_decode_nextDc :
    decode 0b0000000000000000000000000000000000000000000000000000000000010010#64 = .legal .nextDc := by decide
theorem test_decode_nextDlc :
    decode 0b0000000000000000000000000000000000000000000000000000000000010011#64 = .legal .nextDlc := by decide
theorem test_decode_nextDo :
    decode 0b0000000000000000000000000000000000000000000000000000000000010100#64 = .legal .nextDo := by decide
theorem test_decode_nextFc :
    decode 0b0000000000000000000000000000000000000000000000000000000000011000#64 = .legal .nextFc := by decide
theorem test_decode_nextFlc :
    decode 0b0000000000000000000000000000000000000000000000000000000000011001#64 = .legal .nextFlc := by decide
theorem test_decode_nextFo :
    decode 0b0000000000000000000000000000000000000000000000000000000000011010#64 = .legal .nextFo := by decide
theorem test_decode_nextBool :
    decode 0b0000000000000000000000000000000000000000000000000000000000011100#64 = .legal .nextBool := by decide

/-- E-3, E-4, E-6 and E-12: one word for each cause this hardware can meet. -/
theorem test_decode_illegal :
    decode 0x15#64 = .illegal .unknownOp ∧ decode 0x110#64 = .illegal .reservedNonzero
      ∧ decode 0x0000000100000010#64 = .illegal .argNonzero ∧ decode 0x80000001#64 = .illegal .reservedNonzero := by decide

/-- E-10 and E-11: with the option off, an EXT word is illegal and a core word is not. -/
theorem test_decode_ext_absent :
    decodeWith Config.coreOnly 0x1C#64 = .illegal .extAbsent ∧ decodeWith Config.coreOnly 0x12#64 = .legal .nextDc := by
  decide

theorem test_decodeTableWord : decodeTableWord 64 0x1A = some .nextFo ∧ decodeTableWord 32 1 = some (.seed 0#32)
    ∧ decodeTableWord 64 0x1B = none := by decide

/-! ### Shared operations -/

/-- TM-5. -/
theorem test_temper : temper 0x9908B0DF#32 = 0xFE97EAEC#32 := by decide

/-- TA-4. -/
theorem test_twistA : twistA 0x80000001#32 = 0xD908B0DF#32 := by decide

/-- TW-4: a twist from a copy of the old words would give another value. -/
theorem test_twist_reads_new_word : wordAt (twist (initWords 5489#32)) 227 = 0x53E4F8A7#32 := by decide +kernel

/-! ### The commands -/

/-- SD-2. -/
theorem test_seed_zero : wordAt (initWords 0#32) 2 = 0x6C078967#32 ∧ wordAt (initWords 0#32) 623 = 0x6B1A1930#32 := by
  decide +kernel

/-- SD-4: the multiplication wraps. -/
theorem test_seed_largest : wordAt (initWords 0xFFFFFFFF#32) 1 = 0x4FE1DA6D#32 := by decide +kernel

/-- V1, P1: the first NEXT.U32 after reset. -/
theorem test_nextU32_first : (nextState (step (State.reset.withFetchWord 64 0x10))).map (·.responses)
    = some [⟨0#1, 0x00000000D091BB5C#64⟩] := by decide +kernel

/-- I31-1 (a sign-filling shift would give 0xE848DDAE) and I31-4. -/
theorem test_nextI31_logical : resultI31 0xD091BB5C#32 = 0x6848DDAE#64 ∧ resultI31 0xFFFFFFFF#32 = 0x7FFFFFFF#64 := by
  decide

/-- DC-3: a tie; the quotient reading gives ...01. -/
theorem test_nextDc_tie : resultDc 0x80000400#32 = 0x3FE0000080100000#64 := by decide +kernel

/-- DC-6 and DC-8. -/
theorem test_nextDc_top : resultDc 0xFFFFFFFF#32 = 0x3FF0000000000000#64
    ∧ resultDc 0x7FFFFFFF#32 = 0x3FDFFFFFFFE00000#64 := by decide +kernel

/-- DLC-4 and DLC-5. -/
theorem test_nextDlc : resultDlc 0xFFFFFFFF#32 = 0x3FEFFFFFFFE00000#64
    ∧ resultDlc 0xD091BB5C#32 = 0x3FEA12376B800000#64 := by decide +kernel

/-- DO-1 and DO-4. -/
theorem test_nextDo : resultDo 0#32 = 0x3DE0000000000000#64
    ∧ resultDo 0xFFFFFFFF#32 = 0x3FEFFFFFFFF00000#64 := by decide +kernel

/-- FL-7 (the conversion tie) and FL-11 (the smallest draw that gives 1.0). -/
theorem test_nextFc : resultFc 0x01000001#32 = 0x3B800000#64 ∧ resultFc 0xFFFFFF80#32 = 0x3F800000#64 := by
  decide +kernel

/-- FL-10 and FL-14. -/
theorem test_nextFlc : resultFlc 0xFFFFFF7F#32 = 0x3F7FFFFF#64 ∧ resultFlc 0xFF4780EB#32 = 0x3F7F4781#64 := by
  decide +kernel

/-- FL-5 (the sum with 0.5 is a tie) and FL-1. -/
theorem test_nextFo : resultFo 0x00800001#32 = 0x3B000002#64 ∧ resultFo 0#32 = 0x2F000000#64 := by decide +kernel

/-- BL-1 and BL-8. -/
theorem test_nextBool : resultBool 0xFFFFFFFF#32 = 0#64 ∧ resultBool 0xD5C31F79#32 = 1#64 := by decide

/-! ### The assembler and the printed responses -/

/-- P2's first two lines and a repetition of P4's form. -/
theorem test_assemble : assemble "SEED 1\nnext.bool ; parity\n.rept 2\nDISCARD\n.endr"
    = some [0x0000000100000001#64, 0x1C#64, 0x10#64, 0x10#64] := by decide +kernel

theorem test_print : Response.print ⟨0#1, 0x00000000D091BB5C#64⟩ = "-> ok 0x00000000D091BB5C"
    ∧ Response.print ⟨1#1, 0#64⟩ = "-> err" := by decide +kernel

/-! ### Witnesses: states and operands that meet the hypotheses of the statements -/

/-- The reset state with some inputs waiting. -/
def waiting (inputs : List Input) : State := { State.reset with inbox := inputs }

/-- A state in the middle of a block of words. -/
def midBlock : State := { State.reset with idx := 3, draws := 3 }

theorem witness_StepRunsTheDecodedCommand :
    (waiting [.command 0x1A#64]).inbox = .command 0x1A#64 :: [] ∧ decode 0x1A#64 = .legal .nextFo := ⟨rfl, by decide⟩

theorem witness_EncodeOfDecodeIsTheWord : decodeWith Config.hardware 0x1A#64 = .legal .nextFo := by decide

/-- Both clauses of the statement on R90, at the smallest OP above the table's first and at the table's last. -/
theorem witness_IllegalWordsAreThoseOfRule90 :
    IllegalWord Config.hardware 0x02#64 ∧ ¬ IllegalWord Config.hardware 0x1C#64
      ∧ (waiting [.command 0x02#64]).inbox = .command 0x02#64 :: [] := by
  refine ⟨?_, ?_, rfl⟩ <;> unfold IllegalWord <;> decide

theorem witness_LegalExactlyWhenOneTableRowAccepts :
    decodeWith Config.hardware 0x1C#64 = .legal .nextBool
      ∧ OpcodeRow.mk "NEXT.BOOL" 0x1C#64 0xFFFFFFFFFFFFFFFF#64 true ∈ opcodeTable
      ∧ (OpcodeRow.mk "NEXT.BOOL" 0x1C#64 0xFFFFFFFFFFFFFFFF#64 true).accepts Config.hardware 0x1C#64 = true := by
  decide

/-- Inboxes that begin with each kind of input the statements on reset, power and partial transfers speak of. -/
theorem witness_inputs :
    (waiting [.reset]).inbox = .reset :: []
      ∧ (waiting [.reset, .command 0x10#64]).inbox = .reset :: .command 0x10#64 :: []
      ∧ (waiting [.resetDuring 0x10#64]).inbox = .resetDuring 0x10#64 :: []
      ∧ (waiting [.powerCycle]).inbox = .powerCycle :: []
      ∧ (waiting []).inbox = []
      ∧ (waiting [.partialTransfer 63 1]).inbox = .partialTransfer 63 1 :: []
      ∧ (waiting [.partialTransfer 0 0]).inbox = .partialTransfer 0 0 :: [] := by
  refine ⟨rfl, rfl, rfl, rfl, rfl, rfl, rfl⟩

/-- Inputs wait behind a reset and behind a power cycle. -/
theorem witness_SafeRunsNeverStop :
    SafeInbox (waiting [.command 0xFF#64, .reset, .powerCycle, .command 0x10#64]) := by
  simp [SafeInbox, waiting, wholeInput]

theorem witness_SeedErasesThePast :
    (waiting [.command (encode (.seed 7#32))]).inbox = .command (encode (.seed 7#32)) :: []
      ∧ ({ midBlock with inbox := [.command (encode (.seed 7#32))] } : State).inbox
        = .command (encode (.seed 7#32)) :: []
      ∧ ∃ s', Host.Core.run Sys2Proof.core 1 (waiting [.command (encode (.seed 7#32))]) = .next s' :=
  ⟨rfl, rfl, _, rfl⟩

/-- Both clauses on `idx`: an exhausted block, and the two ends of the rest. -/
theorem witness_DrawTakesTheNextWord :
    State.reset.idx = 624 ∧ midBlock.idx ≠ 624 ∧ ({ midBlock with idx := 0 } : State).idx ≠ 624
      ∧ ({ midBlock with idx := 623 } : State).idx ≠ 624 := by
  refine ⟨rfl, ?_, ?_, ?_⟩ <;> simp [midBlock]

theorem witness_TwistTransformOfOneWord : (2#32)[0] = false ∧ (3#32)[0] = true := by decide

theorem witness_OneDrawPerAccessor : Instr.isAccessor .nextU32 = true ∧ Instr.isAccessor .nextBool = true := by decide

theorem witness_OnlyDrawsAndSeedingsChangeTheGenerator : ∃ t, step (waiting [.command 0x10#64]) = .next t := ⟨_, rfl⟩

theorem witness_OnStream : OnStream 5489#32 State.reset ∧ Reaches State.reset ∧ ∃ t, step State.reset = .next t :=
  ⟨⟨rfl, rfl⟩, ⟨5489#32, rfl, rfl⟩, _, rfl⟩

theorem witness_KthAccessorUsesKthDraw :
    (∀ i ∈ [Instr.nextU32, .nextFo], i.isAccessor = true)
      ∧ (waiting (.command (encode (.seed 1#32)) :: [Instr.nextU32, .nextFo].map (fun i => .command (encode i)))).inbox
        = .command (encode (.seed 1#32)) :: [Instr.nextU32, .nextFo].map (fun i => .command (encode i)) :=
  ⟨by decide, rfl⟩

/-- Every kind of whole input, with commands behind each kind of reset. -/
def mixedInputs : List Input :=
  [.command 0x1#64, .reset, .command 0x10#64, .resetDuring 0x10#64, .command 0xFF#64, .powerCycle, .command 0x1C#64]

theorem witness_BlockRefinesTheStreamMachine :
    SafeInbox (waiting mixedInputs) ∧ OnStream (StreamPos.mk 5489#32 0).seed (waiting mixedInputs)
      ∧ (waiting mixedInputs).draws = (StreamPos.mk 5489#32 0).drawn :=
  ⟨by simp [SafeInbox, waiting, wholeInput, mixedInputs], ⟨rfl, rfl⟩, rfl⟩

/-- A state whose every word is the given one, so that the next draw is its tempering. -/
def drawing (w : Word) : State :=
  { mt := Vector.replicate 624 w, idx := 0, draws := 0, inbox := [], responses := [] }

/-- The draws at the ends of the ranges in the statements on NEXT.FC, NEXT.FLC and NEXT.FO. -/
theorem witness_SinglePrecisionRanges :
    (drawing 0xF2A5FB5F#32).draw.1.toNat = 2 ^ 23 - 1 ∧ (drawing 0x04888130#32).draw.1.toNat = 2 ^ 23
      ∧ (drawing 0xF62D7A6F#32).draw.1.toNat = 2 ^ 24 - 1 ∧ (drawing 0x81102244#32).draw.1.toNat = 2 ^ 24
      ∧ (drawing 0x87E16AD2#32).draw.1.toNat = 0xFFFFFF80 ∧ (drawing 0x12DD9BB3#32).draw.1.toNat = 0xFFFFFFFF := by
  decide +kernel

/-- The word numbers at which the clauses on seeding and on the twist meet, and the ends of NEXT.I31's range. -/
theorem witness_ranges :
    (1 ≤ 1 ∧ 1 ≤ 623) ∧ (1 ≤ 623 ∧ 623 ≤ 623) ∧ (226 ≤ 623 ∧ 226 ≤ 226) ∧ (227 ≤ 623 ∧ ¬ 227 ≤ 226)
      ∧ (622 ≤ 623 ∧ 622 ≤ 622) ∧ ¬ 623 ≤ 622 ∧ 0 ≤ 0x7FFFFFFF ∧ 0x7FFFFFFF ≤ 0x7FFFFFFF
      ∧ (resultI31 0#32).toNat = 0 ∧ (resultI31 0xFFFFFFFF#32).toNat = 0x7FFFFFFF := by decide

/-- The tie clauses of the statement on the two readings: a tie whose lower neighbour is even, a tie whose lower neighbour is
odd, and a draw that is no tie. -/
theorem witness_ties :
    (ProductIsTie 0x80000400#32 ∧ LowerNeighbourIsEven 0x80000400#32)
      ∧ (ProductIsTie 0x80000C00#32 ∧ ¬ LowerNeighbourIsEven 0x80000C00#32) ∧ ¬ ProductIsTie 0xD091BB5C#32 := by
  refine ⟨⟨?_, ?_⟩, ⟨?_, ?_⟩, ?_⟩ <;> simp only [ProductIsTie, LowerNeighbourIsEven] <;> decide +kernel

/-- The classes of commands in the statement on DATA, and an illegal word. -/
theorem witness_ResultsFitTheirPlaceInData :
    Instr.nextDo ∈ [Instr.nextDc, .nextDlc, .nextDo] ∧ Instr.nextFo ∈ [Instr.nextFc, .nextFlc, .nextFo]
      ∧ (waiting [.command 0xFF#64]).inbox = .command 0xFF#64 :: [] ∧ ∃ why, decode 0xFF#64 = .illegal why :=
  ⟨by decide, by decide, rfl, _, rfl⟩

/-- R14's two clauses: 2^53 + 1 is halfway between two binary64 values, and 2^53 + 2 is as near as the one chosen. -/
theorem witness_RoundingIsToNearestTiesToEven :
    binary64 ∈ [binary64, binary32] ∧ (Exact.mk (2 ^ 53 + 1) 1 0).den ≠ 0 ∧ 2 ^ 52 + 1 < 2 ^ binary64.prec
      ∧ binary64.emin - (binary64.prec - 1) ≤ (1 : Int) ∧ binary64.round ⟨2 ^ 53 + 1, 1, 0⟩ = ⟨2 ^ 52, 1⟩ := by
  decide

theorem witness_BlocksShareNothing :
    ∃ b, BlockArray.step 1 ⟨[State.reset, waiting [.command 0x10#64]]⟩ = .next b := ⟨_, rfl⟩

/-- The third turn is of a host with no command left, the fourth of no host. -/
theorem witness_EveryInterleavingIsASerialRun :
    (SharedPort.mk State.reset [[0x10#64, 0x11#64], [0x12#64]]).block.inbox = []
      ∧ serialise [1, 0, 1, 7, 0] [[0x10#64, 0x11#64], [0x12#64]] = [0x12#64, 0x10#64, 0x11#64] := ⟨rfl, by decide⟩

theorem witness_ResponsesFollowFromWordsIndexAndInputs :
    State.reset.mt = ({ State.reset with draws := 9 } : State).mt
      ∧ State.reset.idx = ({ State.reset with draws := 9 } : State).idx
      ∧ State.reset.inbox = ({ State.reset with draws := 9 } : State).inbox
      ∧ ∃ s', Host.Core.run Sys2Proof.core 1 State.reset = .next s' := ⟨rfl, rfl, rfl, _, rfl⟩

end Sys2Proof.Tests
end

section
/-! Correct rounding (R14, R175). An exact value is seen through its quotient by the unit in the last place: rounding picks the
integer nearest to that quotient. Every datum at or above that unit is a multiple of it, and every datum with a smaller unit
lies below the value's leading power of two, which is itself such a multiple and nearer. -/

namespace Sys2Proof.Machine

/-! ### The nearest integer, as a rational distance -/

/-- The distance to the nearest integer is at most half. -/
theorem abs_roundQuotient_sub_le (n : Nat) {d : Nat} (h : 0 < d) : |(roundQuotient n d : ℚ) - n / d| ≤ 1 / 2 := by
  have hd : (0 : ℚ) < d := by exact_mod_cast h
  have above : (2 : ℚ) * n ≤ (2 * roundQuotient n d + 1) * d := by exact_mod_cast roundQuotient_le n h
  have below : (2 : ℚ) * (roundQuotient n d * d) ≤ 2 * n + d := by exact_mod_cast le_roundQuotient n h
  have high : (n : ℚ) / d ≤ roundQuotient n d + 1 / 2 := by rw [div_le_iff₀ hd]; linarith
  have low : roundQuotient n d - 1 / 2 ≤ (n : ℚ) / d := by rw [le_div_iff₀ hd]; linarith
  exact abs_le.mpr ⟨by linarith, by linarith⟩

theorem one_le_abs_natCast_sub {a b : Nat} (h : a ≠ b) : (1 : ℚ) ≤ |(a : ℚ) - b| := by
  exact_mod_cast Int.one_le_abs (sub_ne_zero.mpr (Nat.cast_injective.ne h : (a : Int) ≠ b))

/-- No integer is nearer to the quotient than the rounded one: two integers are at least 1 apart. -/
theorem abs_roundQuotient_sub_le_abs_sub (n : Nat) {d : Nat} (h : 0 < d) (j : Nat) :
    |(roundQuotient n d : ℚ) - n / d| ≤ |(j : ℚ) - n / d| := by
  rcases eq_or_ne (roundQuotient n d) j with e | hj
  · rw [e]
  have := abs_sub_le (roundQuotient n d : ℚ) (n / d) j
  rw [abs_sub_comm (n / d : ℚ) j] at this
  linarith [one_le_abs_natCast_sub hj, abs_roundQuotient_sub_le n h]

/-- Where the quotient is an odd number of halves, the division leaves half the divisor. -/
theorem two_mul_mod_of_odd_halves {n d t : Nat} (h : 0 < d) (ht : 2 * n = (2 * t + 1) * d) : 2 * (n % d) = d := by
  obtain ⟨c, rfl⟩ : ∃ c, n = c + t * d := Nat.exists_eq_add_of_le' (by nlinarith)
  have hc : 2 * c = d := by linarith
  rw [Nat.add_mul_mod_self_right, Nat.mod_eq_of_lt (by omega), hc]

/-- Where another integer is as near to the quotient, the rounded one is even: the quotient lies halfway between two
neighbours. -/
theorem roundQuotient_even_of_abs_eq {n d j : Nat} (h : 0 < d) (hj : j ≠ roundQuotient n d)
    (he : |(roundQuotient n d : ℚ) - n / d| = |(j : ℚ) - n / d|) : roundQuotient n d % 2 = 0 := by
  have hd : (d : ℚ) ≠ 0 := by positivity
  have half := abs_roundQuotient_sub_le n h
  have halfJ := he ▸ half
  have apart : (roundQuotient n d : ℚ) - n / d = -(j - n / d) := by
    refine (abs_eq_abs.mp he).resolve_left fun e => hj ?_
    exact_mod_cast (sub_left_inj.mp e).symm
  have sum : 2 * n = (roundQuotient n d + j) * d := by
    have : (2 : ℚ) * n = (roundQuotient n d + j) * d := by
      field_simp at apart
      linarith
    exact_mod_cast this
  have near : roundQuotient n d ≤ j + 1 ∧ j ≤ roundQuotient n d + 1 := by
    rw [abs_le] at half halfJ
    constructor
    · have : (roundQuotient n d : ℚ) ≤ j + 1 := by linarith
      exact_mod_cast this
    · have : (j : ℚ) ≤ roundQuotient n d + 1 := by linarith
      exact_mod_cast this
  refine roundQuotient_tie (two_mul_mod_of_odd_halves h (t := min (roundQuotient n d) j) ?_)
  rw [sum]
  congr 1
  omega

/-! ### Exact values as rationals -/

@[simp] theorem Datum.real_toRat (d : Datum) : d.real.toRat = d.sig * (2 : ℚ) ^ d.exp := by
  simp [Datum.real, Exact.toRat]

namespace Exact

theorem toRat_eq_zero {x : Exact} (h : x.num = 0) : x.toRat = 0 := by simp [toRat, h]

theorem scaled_den_pos {x : Exact} (h : x.den ≠ 0) (k : Int) : 0 < (x.scaled k).2 :=
  Nat.mul_pos (Nat.pos_of_ne_zero h) (Nat.two_pow_pos _)

/-- A power of two split into the powers of the parts of its exponent. -/
theorem two_zpow_sub_add (a b : Nat) (e : Int) : (2 : ℚ) ^ ((a : Int) - b + e) = 2 ^ a / 2 ^ b * 2 ^ e := by
  rw [zpow_add₀ (by norm_num), zpow_sub₀ (by norm_num), zpow_natCast, zpow_natCast]

/-- A power of two as the quotient of the two natural powers, one of which is 1. -/
theorem two_pow_toNat_div (k : Int) : (2 : ℚ) ^ k.toNat / 2 ^ (-k).toNat = 2 ^ k := by
  rw [← zpow_natCast, ← zpow_natCast, ← zpow_sub₀ (by norm_num)]
  congr 1
  omega

/-- The scaled fraction is the value times `2 ^ k`. -/
theorem scaled_div {x : Exact} (k : Int) : ((x.scaled k).1 : ℚ) / (x.scaled k).2 = x.toRat * 2 ^ k := by
  simp only [scaled, toRat]
  push_cast
  rw [mul_div_mul_comm, two_pow_toNat_div, mul_assoc, ← zpow_add₀ (by norm_num)]

/-- The first estimate of the exponent, from the places of the highest bits, is at most 1 too high. -/
theorem two_zpow_estimate {x : Exact} (hn : x.num ≠ 0) (hd : x.den ≠ 0) :
    (2 : ℚ) ^ ((Nat.log2 x.num : Int) - Nat.log2 x.den + x.exp - 1) ≤ x.toRat
      ∧ x.toRat < 2 ^ ((Nat.log2 x.num : Int) - Nat.log2 x.den + x.exp + 1) := by
  have n1 : (2 : ℚ) ^ Nat.log2 x.num ≤ x.num := by exact_mod_cast Nat.log2_self_le hn
  have n2 : (x.num : ℚ) < 2 ^ (Nat.log2 x.num + 1) := by exact_mod_cast Nat.lt_log2_self
  have d1 : (2 : ℚ) ^ Nat.log2 x.den ≤ x.den := by exact_mod_cast Nat.log2_self_le hd
  have d2 : (x.den : ℚ) < 2 ^ (Nat.log2 x.den + 1) := by exact_mod_cast Nat.lt_log2_self
  have dpos : (0 : ℚ) < x.den := by positivity
  have low : (Nat.log2 x.num : Int) - Nat.log2 x.den + x.exp - 1 = Nat.log2 x.num - (Nat.log2 x.den + 1 : Nat) + x.exp := by
    omega
  have high : (Nat.log2 x.num : Int) - Nat.log2 x.den + x.exp + 1 = (Nat.log2 x.num + 1 : Nat) - Nat.log2 x.den + x.exp := by
    omega
  rw [low, high, two_zpow_sub_add, two_zpow_sub_add, toRat]
  constructor <;> gcongr

/-- `floorLog2` is the exponent of the leading power of two (R14). -/
theorem floorLog2_spec {x : Exact} (hn : x.num ≠ 0) (hd : x.den ≠ 0) :
    (2 : ℚ) ^ x.floorLog2 ≤ x.toRat ∧ x.toRat < 2 ^ (x.floorLog2 + 1) := by
  obtain ⟨low, high⟩ := two_zpow_estimate hn hd
  unfold floorLog2
  generalize (Nat.log2 x.num : Int) - Nat.log2 x.den + x.exp = e at *
  have test : (x.scaled (-e)).2 ≤ (x.scaled (-e)).1 ↔ (2 : ℚ) ^ e ≤ x.toRat := by
    have hpos : (0 : ℚ) < (x.scaled (-e)).2 := by exact_mod_cast scaled_den_pos hd _
    rw [← Nat.cast_le (α := ℚ), ← one_le_div hpos, scaled_div, zpow_neg, ← div_eq_mul_inv, one_le_div (by positivity)]
  dsimp only
  split
  next h => exact ⟨test.mp h, high⟩
  next h => exact ⟨low, by simpa using mt test.mpr h⟩

end Exact

/-! ### Rounding to the format's data -/

namespace Format

theorem round_of_num_ne_zero (f : Format) {x : Exact} (h : x.num ≠ 0) :
    f.round x = ⟨roundQuotient (x.scaled (-f.ulpExponent x)).1 (x.scaled (-f.ulpExponent x)).2, f.ulpExponent x⟩ := by
  simp [round, h]

/-- The distance from a multiple of `2 ^ k` to the value, in units of `2 ^ k`. -/
theorem abs_mul_zpow_sub_toRat (x : Exact) (k : Int) (j : Nat) :
    |(j : ℚ) * 2 ^ k - x.toRat| = |(j : ℚ) - (x.scaled (-k)).1 / (x.scaled (-k)).2| * 2 ^ k := by
  have hk : (0 : ℚ) < 2 ^ k := by positivity
  rw [Exact.scaled_div, ← abs_of_pos hk, ← abs_mul, abs_of_pos hk, sub_mul, mul_assoc, ← zpow_add₀ (by norm_num)]
  simp

/-- The value in units of the last place is below `2 ^ prec`, so the significand needs no more than `prec` bits, or is
`2 ^ prec` itself. -/
theorem round_sig_le (f : Format) {x : Exact} (hd : x.den ≠ 0) : (f.round x).sig ≤ 2 ^ f.prec := by
  rcases eq_or_ne x.num 0 with h | hn
  · simp [round, h]
  rw [f.round_of_num_ne_zero hn]
  set k := f.ulpExponent x with hk
  have near := (abs_le.mp (abs_roundQuotient_sub_le (x.scaled (-k)).1 (Exact.scaled_den_pos hd (-k)))).2
  have below : ((x.scaled (-k)).1 : ℚ) / (x.scaled (-k)).2 < 2 ^ f.prec := by
    rw [Exact.scaled_div, zpow_neg, ← div_eq_mul_inv, div_lt_iff₀ (by positivity), ← zpow_natCast,
      ← zpow_add₀ (by norm_num)]
    refine (Exact.floorLog2_spec hn hd).2.trans_le (zpow_le_zpow_right₀ (by norm_num) ?_)
    rw [hk, ulpExponent]
    omega
  have : (roundQuotient (x.scaled (-k)).1 (x.scaled (-k)).2 : ℚ) < 2 ^ f.prec + 1 := by linarith
  exact Nat.lt_succ_iff.mp (by exact_mod_cast this)

/-- Among the multiples of the unit in the last place the rounded datum is nearest, and even at a tie. -/
theorem round_nearest_multiple (f : Format) {x : Exact} (hn : x.num ≠ 0) (hd : x.den ≠ 0) (j : Nat) :
    |(f.round x).real.toRat - x.toRat| ≤ |(j : ℚ) * 2 ^ f.ulpExponent x - x.toRat|
      ∧ (|(f.round x).real.toRat - x.toRat| = |(j : ℚ) * 2 ^ f.ulpExponent x - x.toRat| →
        (j : ℚ) * 2 ^ f.ulpExponent x ≠ (f.round x).real.toRat → (f.round x).sig % 2 = 0) := by
  have hk : (0 : ℚ) < 2 ^ f.ulpExponent x := by positivity
  have hs := Exact.scaled_den_pos hd (-f.ulpExponent x)
  rw [Datum.real_toRat, f.round_of_num_ne_zero hn]
  simp only [abs_mul_zpow_sub_toRat]
  refine ⟨mul_le_mul_of_nonneg_right (abs_roundQuotient_sub_le_abs_sub _ hs j) hk.le, fun tie differ => ?_⟩
  exact roundQuotient_even_of_abs_eq hs (fun e : j = _ => differ (by rw [e])) (mul_right_cancel₀ hk.ne' tie)

/-- A datum with a smaller unit lies below a power of two that is a multiple of the value's unit and not above the value. -/
theorem lt_leading_power_of_lt_ulpExponent (f : Format) (hp : 1 ≤ f.prec) {x : Exact} (hn : x.num ≠ 0) (hd : x.den ≠ 0)
    {m : Nat} {e : Int} (hm : m < 2 ^ f.prec) (he : f.emin - (f.prec - 1) ≤ e) (hlt : e < f.ulpExponent x) :
    (m : ℚ) * 2 ^ e < (2 ^ (f.prec - 1) : Nat) * 2 ^ f.ulpExponent x
      ∧ ((2 ^ (f.prec - 1) : Nat) : ℚ) * 2 ^ f.ulpExponent x ≤ x.toRat := by
  have hk : f.ulpExponent x = x.floorLog2 - ((f.prec : Int) - 1) := by
    unfold ulpExponent at hlt ⊢
    omega
  have lead : ((2 ^ (f.prec - 1) : Nat) : ℚ) * 2 ^ f.ulpExponent x = 2 ^ x.floorLog2 := by
    rw [Nat.cast_pow, Nat.cast_ofNat, ← zpow_natCast, ← zpow_add₀ (by norm_num), hk]
    congr 1
    omega
  rw [lead]
  refine ⟨?_, (Exact.floorLog2_spec hn hd).1⟩
  calc (m : ℚ) * 2 ^ e < 2 ^ f.prec * 2 ^ e := by gcongr; exact_mod_cast hm
    _ = 2 ^ ((f.prec : Int) + e) := by rw [zpow_add₀ (by norm_num), zpow_natCast]
    _ ≤ 2 ^ x.floorLog2 := zpow_le_zpow_right₀ (by norm_num) (by omega)

/-- Every datum with a smaller unit is strictly further from the value than the rounded one. -/
theorem round_nearer_of_lt_ulpExponent (f : Format) (hp : 1 ≤ f.prec) {x : Exact} (hn : x.num ≠ 0) (hd : x.den ≠ 0)
    {m : Nat} {e : Int} (hm : m < 2 ^ f.prec) (he : f.emin - (f.prec - 1) ≤ e) (hlt : e < f.ulpExponent x) :
    |(f.round x).real.toRat - x.toRat| < |(m : ℚ) * 2 ^ e - x.toRat| := by
  obtain ⟨below, lead⟩ := f.lt_leading_power_of_lt_ulpExponent hp hn hd hm he hlt
  refine (f.round_nearest_multiple hn hd (2 ^ (f.prec - 1))).1.trans_lt ?_
  rw [abs_of_nonpos (by linarith), abs_of_nonpos (by linarith)]
  linarith

/-- Rounding goes to a nearest datum, and to the even significand at a tie, in every format with a significand (R14). -/
theorem round_nearest_even (f : Format) (hp : 1 ≤ f.prec) {x : Exact} (hd : x.den ≠ 0) {m : Nat} {e : Int}
    (hm : m < 2 ^ f.prec) (he : f.emin - (f.prec - 1) ≤ e) :
    |(f.round x).real.toRat - x.toRat| ≤ |(Datum.mk m e).real.toRat - x.toRat|
      ∧ (|(f.round x).real.toRat - x.toRat| = |(Datum.mk m e).real.toRat - x.toRat| →
        (Datum.mk m e).real.toRat ≠ (f.round x).real.toRat → (f.round x).sig % 2 = 0) := by
  rw [Datum.real_toRat ⟨m, e⟩]
  rcases eq_or_ne x.num 0 with h | hn
  · have hz : f.round x = ⟨0, 0⟩ := by simp [round, h]
    simp only [hz, Datum.real_toRat, Exact.toRat_eq_zero h]
    simpa using (by positivity : (0 : ℚ) ≤ m * 2 ^ e)
  rcases lt_or_ge e (f.ulpExponent x) with hlt | hge
  · have nearer := f.round_nearer_of_lt_ulpExponent hp hn hd hm he hlt
    exact ⟨nearer.le, fun tie => absurd tie nearer.ne⟩
  · have multiple : (m : ℚ) * 2 ^ e = (m * 2 ^ (e - f.ulpExponent x).toNat : Nat) * 2 ^ f.ulpExponent x := by
      push_cast
      rw [mul_assoc, ← zpow_natCast, ← zpow_add₀ (by norm_num)]
      congr 2
      omega
    simp only [multiple]
    exact f.round_nearest_multiple hn hd _

end Format

/-- Settles O50: both formats have a significand, so rounding in them is to nearest with ties to even. -/
theorem roundingIsToNearestTiesToEven : Obligations.RoundingIsToNearestTiesToEven := by
  unfold Obligations.RoundingIsToNearestTiesToEven
  intro f hf x hd
  have hp : 1 ≤ f.prec := by
    simp only [List.mem_cons, List.not_mem_nil, or_false] at hf
    obtain rfl | rfl := hf <;> decide
  exact ⟨f.round_sig_le hd, fun m e hm he => f.round_nearest_even hp hd hm he⟩

end Sys2Proof.Machine
end

section
/-! What a raw draw and an accessor depend on: the words and the index alone. The ghost counter and the two ports have no part
in them (R38, R39, R137). -/

namespace Sys2Proof.Machine

namespace State

variable {s t : State}

theorem refill_mt_congr (hmt : s.mt = t.mt) (hidx : s.idx = t.idx) : s.refill.mt = t.refill.mt := by
  by_cases h : s.idx = 624
  · rw [refill_of_exhausted h, refill_of_exhausted (hidx ▸ h), hmt]
  · rw [refill_of_remaining h, refill_of_remaining (hidx ▸ h), hmt]

theorem refill_idx_congr (hidx : s.idx = t.idx) : s.refill.idx = t.refill.idx := by
  by_cases h : s.idx = 624
  · rw [refill_of_exhausted h, refill_of_exhausted (hidx ▸ h)]
  · rw [refill_of_remaining h, refill_of_remaining (hidx ▸ h), hidx]

theorem afterDraw_mt_congr (hmt : s.mt = t.mt) (hidx : s.idx = t.idx) : s.afterDraw.mt = t.afterDraw.mt :=
  refill_mt_congr hmt hidx

theorem afterDraw_idx_congr (hidx : s.idx = t.idx) : s.afterDraw.idx = t.afterDraw.idx :=
  Fin.ext (by rw [afterDraw_idx_val, afterDraw_idx_val, refill_idx_congr hidx])

theorem drawnWord_eq (s : State) : s.drawnWord = temper (wordAt s.refill.mt s.refill.idx.val) := by
  rw [wordAt_of_lt _ s.refill_idx_lt, drawnWord]

theorem drawnWord_congr (hmt : s.mt = t.mt) (hidx : s.idx = t.idx) : s.drawnWord = t.drawnWord := by
  rw [drawnWord_eq, drawnWord_eq, refill_mt_congr hmt hidx, refill_idx_congr hidx]

end State

theorem exec_seed (v : Word) (s : State) : exec (.seed v) s = .next ((s.seeded v).respond errOk dataNone) := rfl

/-- An accessor draws once and responds with its own function of the drawn word (R130). -/
theorem exec_accessor {i : Instr} (h : i.isAccessor = true) (s : State) :
    exec i s = .next (s.afterDraw.respond errOk (Safety.accessorResult i s.drawnWord)) := by
  cases i with
  | seed v => cases h
  | _ => rfl

end Sys2Proof.Machine
end

section
/-! The generator along a run (R42, R131, R139): which steps change it and how, and that it stays on the stream of a seed. -/

namespace Sys2Proof.Safety

open Sys2Proof.Machine

theorem sameGenerator_afterDraw {s t : State} (h : SameGenerator s t) : SameGenerator s.afterDraw t.afterDraw := by
  obtain ⟨hmt, hidx, hdraws⟩ := h
  refine ⟨State.afterDraw_mt_congr hmt hidx, State.afterDraw_idx_congr hidx, ?_⟩
  rw [State.afterDraw_draws, State.afterDraw_draws, hdraws]

theorem onStream_of_sameGenerator {v : Word} {s t : State} (h : SameGenerator s t) (hs : OnStream v s) :
    OnStream v t := by
  obtain ⟨hmt, hidx, hdraws⟩ := h
  unfold OnStream at *
  rwa [← hmt, ← hidx, ← hdraws]

theorem onStream_seeded (v : Word) (s : State) : OnStream v (s.seeded v) := onStream_start rfl rfl rfl

/-- Settles O26: the cases of a step and of a command, each with what it does to the generator. -/
theorem onlyDrawsAndSeedingsChangeTheGenerator : Obligations.OnlyDrawsAndSeedingsChangeTheGenerator := by
  unfold Obligations.OnlyDrawsAndSeedingsChangeTheGenerator
  intro s t ht
  obtain ⟨idle, hs⟩ | ⟨x, rest, hin, ⟨w, why, rfl, hd, hs⟩ | ⟨w, i, rfl, hd, hs⟩ | ⟨hx, hs⟩ | ⟨_, _, _, hs⟩⟩ :=
    stepWith_cases Config.hardware s
  · cases ht.symm.trans hs
    exact .inl ⟨⟨rfl, rfl, rfl⟩, .inl idle⟩
  · cases ht.symm.trans hs
    exact .inl ⟨⟨rfl, rfl, rfl⟩, .inr ⟨w, rest, why, hin, hd⟩⟩
  · obtain ⟨v, rfl, he⟩ | ⟨ha, d, he⟩ := exec_cases i { s with inbox := rest }
    · cases ht.symm.trans (hs.trans he)
      exact .inr (.inr (.inl ⟨v, w, rest, ⟨rfl, rfl, rfl⟩, hin, hd⟩))
    · cases ht.symm.trans (hs.trans he)
      have drawn : SameGenerator s.afterDraw ({ s with inbox := rest } : State).afterDraw :=
        sameGenerator_afterDraw ⟨rfl, rfl, rfl⟩
      exact .inr (.inr (.inr ⟨drawn, i, w, rest, hin, hd, ha⟩))
  · cases ht.symm.trans hs
    exact .inr (.inl ⟨⟨rfl, rfl, rfl⟩, x, rest, hin, hx⟩)
  · cases ht.symm.trans hs

/-- Settles O28: a step keeps the generator, seeds, which starts a stream, or draws once, which stays on the stream. -/
theorem everyStepStaysOnAStream : Obligations.EveryStepStaysOnAStream := by
  unfold Obligations.EveryStepStaysOnAStream
  intro s t ⟨v, hv⟩ ht
  obtain ⟨kept, -⟩ | ⟨reset, -⟩ | ⟨seed, -, -, seeded, -⟩ | ⟨drawn, -⟩ :=
    onlyDrawsAndSeedingsChangeTheGenerator s t ht
  · exact ⟨v, onStream_of_sameGenerator kept hv⟩
  · exact ⟨5489#32, onStream_of_sameGenerator reset (onStream_seeded _ s)⟩
  · exact ⟨seed, onStream_of_sameGenerator seeded (onStream_seeded _ s)⟩
  · exact ⟨v, onStream_of_sameGenerator drawn (onStream_afterDraw hv)⟩

/-- Settles O29: reset seeds with 5489. -/
theorem resetIsOnTheDefaultStream : Obligations.ResetIsOnTheDefaultStream := by
  unfold Obligations.ResetIsOnTheDefaultStream
  exact ⟨onStream_start rfl rfl rfl, rfl⟩

/-- Settles O9: the reset words are those of `Init(5489)`, and the listed ones are evaluated. -/
theorem resetStateHoldsTheListedValues : Obligations.ResetStateHoldsTheListedValues := by
  unfold Obligations.ResetStateHoldsTheListedValues
  have listed : wordAt (initWords 5489#32) 0 = 0x00001571#32 ∧ wordAt (initWords 5489#32) 1 = 0x4D98EE96#32
      ∧ wordAt (initWords 5489#32) 2 = 0xAF25F095#32 ∧ wordAt (initWords 5489#32) 3 = 0xAFD9BA96#32
      ∧ wordAt (initWords 5489#32) 4 = 0x6FCBD068#32 ∧ wordAt (initWords 5489#32) 623 = 0x04C46D8C#32 := by
    decide +kernel
  obtain ⟨w0, w1, w2, w3, w4, w623⟩ := listed
  exact ⟨w0, fun _ _ _ => rfl, w1, w2, w3, w4, w623, rfl, rfl⟩

end Sys2Proof.Safety
end

section
/-! The responses follow from the words, the index and the waiting inputs (R38, R39, R114): blocks that agree in those give
the same new responses and agree again, after one input, one step and a run. -/

namespace Sys2Proof.Safety

open Sys2Proof.Machine

/-- The two states agree in all that responses may depend on: not in the ghost counter, nor in the responses already given. -/
structure AgreeOnInputs (s t : State) : Prop where
  mt : s.mt = t.mt
  idx : s.idx = t.idx
  inbox : s.inbox = t.inbox

/-- From `s` to `s'` and from `t` to `t'` the same responses were given, and the blocks agree afterwards. -/
structure RespondedAlike (s t s' t' : State) : Prop where
  agree : AgreeOnInputs s' t'
  responses : ∃ new, s'.responses = s.responses ++ new ∧ t'.responses = t.responses ++ new

namespace AgreeOnInputs

variable {s t : State}

theorem withInbox (h : AgreeOnInputs s t) (rest : List Input) :
    AgreeOnInputs { s with inbox := rest } { t with inbox := rest } := ⟨h.mt, h.idx, rfl⟩

theorem seeded (h : AgreeOnInputs s t) (v : Word) : AgreeOnInputs (s.seeded v) (t.seeded v) := ⟨rfl, rfl, h.inbox⟩

theorem afterDraw (h : AgreeOnInputs s t) : AgreeOnInputs s.afterDraw t.afterDraw :=
  ⟨State.afterDraw_mt_congr h.mt h.idx, State.afterDraw_idx_congr h.idx, by simp [h.inbox]⟩

theorem respond (h : AgreeOnInputs s t) (e : BitVec 1) (d : Data) : AgreeOnInputs (s.respond e d) (t.respond e d) :=
  ⟨h.mt, h.idx, h.inbox⟩

end AgreeOnInputs

namespace RespondedAlike

variable {s t s' t' s'' t'' : State}

/-- No step and no response on either side. -/
theorem refl (h : AgreeOnInputs s t) : RespondedAlike s t s t :=
  ⟨h, [], (List.append_nil _).symm, (List.append_nil _).symm⟩

theorem seeded (h : AgreeOnInputs s t) (v : Word) : RespondedAlike s t (s.seeded v) (t.seeded v) :=
  ⟨h.seeded v, [], (List.append_nil _).symm, (List.append_nil _).symm⟩

theorem afterDraw (h : AgreeOnInputs s t) : RespondedAlike s t s.afterDraw t.afterDraw :=
  ⟨h.afterDraw, [], by simp, by simp⟩

/-- One and the same response on both sides. -/
theorem respond (h : AgreeOnInputs s t) (e : BitVec 1) (d : Data) :
    RespondedAlike s t (s.respond e d) (t.respond e d) :=
  ⟨h.respond e d, [⟨e, d⟩], s.respond_responses e d, t.respond_responses e d⟩

theorem trans (h₁ : RespondedAlike s t s' t') (h₂ : RespondedAlike s' t' s'' t'') : RespondedAlike s t s'' t'' := by
  obtain ⟨-, first, hs₁, ht₁⟩ := h₁
  obtain ⟨agree, later, hs₂, ht₂⟩ := h₂
  exact ⟨agree, first ++ later, by rw [hs₂, hs₁, List.append_assoc], by rw [ht₂, ht₁, List.append_assoc]⟩

end RespondedAlike

variable {s t s' : State}

theorem exec_respondedAlike (i : Instr) (h : AgreeOnInputs s t) (hs : exec i s = .next s') :
    ∃ t', exec i t = .next t' ∧ RespondedAlike s t s' t' := by
  obtain ⟨v, rfl, -⟩ | ⟨ha, -⟩ := exec_cases i s
  · cases hs.symm.trans (exec_seed v s)
    exact ⟨_, exec_seed v t, (RespondedAlike.seeded h v).trans (.respond (h.seeded v) _ _)⟩
  · cases hs.symm.trans (exec_accessor ha s)
    rw [State.drawnWord_congr h.mt h.idx]
    exact ⟨_, exec_accessor ha t, (RespondedAlike.afterDraw h).trans (.respond h.afterDraw _ _)⟩

theorem runCommand_respondedAlike (cfg : Config) (w : Command) (h : AgreeOnInputs s t)
    (hs : runCommand cfg w s = .next s') : ∃ t', runCommand cfg w t = .next t' ∧ RespondedAlike s t s' t' := by
  cases hd : decodeWith cfg w with
  | illegal why =>
    cases hs.symm.trans (runCommand_illegal hd s)
    exact ⟨_, runCommand_illegal hd t, .respond h _ _⟩
  | legal i =>
    rw [runCommand_legal hd] at hs ⊢
    exact exec_respondedAlike i h hs

theorem runInput_respondedAlike (cfg : Config) (x : Input) (h : AgreeOnInputs s t)
    (hs : runInput cfg x s = .next s') : ∃ t', runInput cfg x t = .next t' ∧ RespondedAlike s t s' t' := by
  have reset : RespondedAlike s t s.takeReset t.takeReset := .seeded h _
  cases x with
  | command w => exact runCommand_respondedAlike cfg w h hs
  | reset => cases hs; exact ⟨_, rfl, reset⟩
  | resetDuring w => cases hs; exact ⟨_, rfl, reset⟩
  | powerCycle => cases hs; exact ⟨_, rfl, reset⟩
  | partialTransfer width bits => cases hs

theorem stepWith_respondedAlike (cfg : Config) (h : AgreeOnInputs s t) (hs : stepWith cfg s = .next s') :
    ∃ t', stepWith cfg t = .next t' ∧ RespondedAlike s t s' t' := by
  cases hin : s.inbox with
  | nil =>
    cases hs.symm.trans (stepWith_idle cfg hin)
    exact ⟨t, stepWith_idle cfg (h.inbox ▸ hin), .refl h⟩
  | cons x rest =>
    rw [stepWith_input cfg hin] at hs
    obtain ⟨t', ht, agree, responses⟩ := runInput_respondedAlike cfg x (h.withInbox rest) hs
    exact ⟨t', (stepWith_input cfg (h.inbox ▸ hin)).trans ht, agree, responses⟩

theorem run_respondedAlike (n : Nat) (h : AgreeOnInputs s t) (hs : Host.Core.run Sys2Proof.core n s = .next s') :
    ∃ t', Host.Core.run Sys2Proof.core n t = .next t' ∧ RespondedAlike s t s' t' := by
  induction n generalizing s t with
  | zero =>
    cases hs
    exact ⟨t, rfl, .refl h⟩
  | succ n ih =>
    obtain ⟨s₁, hstep, hrun⟩ := run_succ_next hs
    obtain ⟨t₁, htstep, first⟩ := stepWith_respondedAlike Config.hardware h hstep
    obtain ⟨t', htrun, later⟩ := ih first.agree hrun
    exact ⟨t', (run_succ n htstep).trans htrun, first.trans later⟩

/-- Settles O53, by induction on the number of steps (`run_respondedAlike`). -/
theorem responsesFollowFromWordsIndexAndInputs : Obligations.ResponsesFollowFromWordsIndexAndInputs := by
  unfold Obligations.ResponsesFollowFromWordsIndexAndInputs
  intro n s t s' hmt hidx hinbox hs
  obtain ⟨t', ht, ⟨mt, idx, inbox⟩, new, hsnew, htnew⟩ := run_respondedAlike n ⟨hmt, hidx, hinbox⟩ hs
  exact ⟨t', new, ht, mt, idx, inbox, hsnew, htnew⟩

end Sys2Proof.Safety
end

section
/-! Several blocks (R43, R228): a step of one block writes that block's place in the list alone. -/

namespace Sys2Proof.Machine

/-- Everything a step of block `k` can do, where it has a next state. -/
theorem BlockArray.step_cases {a b : BlockArray} {k : Nat} (h : a.step k = .next b) :
    (a.blocks[k]? = none ∧ b = a)
      ∨ ∃ s t, a.blocks[k]? = some s ∧ Machine.step s = .next t ∧ b = ⟨a.blocks.set k t⟩ := by
  unfold BlockArray.step at h
  cases hk : a.blocks[k]? with
  | none =>
    simp only [hk] at h
    cases h
    exact .inl ⟨rfl, rfl⟩
  | some s =>
    simp only [hk] at h
    cases hs : Machine.step s with
    | next t =>
      simp only [hs] at h
      cases h
      exact .inr ⟨s, t, rfl, hs, rfl⟩
    | fault r => cases r
    | refused r => simp [hs] at h

/-- Settles O51: the step sets the block's own place to its own next state, or finds no block there. -/
theorem blocksShareNothing : Obligations.BlocksShareNothing := by
  unfold Obligations.BlocksShareNothing
  intro a b k h
  obtain ⟨absent, rfl⟩ | ⟨s, t, present, hs, rfl⟩ := BlockArray.step_cases h
  · exact ⟨fun _ _ => rfl, fun s hk => by simp [absent] at hk⟩
  · refine ⟨fun j hj => List.getElem?_set_ne hj.symm, fun u hu => ?_⟩
    cases present.symm.trans hu
    obtain ⟨inRange, -⟩ := List.getElem?_eq_some_iff.mp present
    exact ⟨t, hs, List.getElem?_set_self inRange⟩

end Sys2Proof.Machine
end

section
/-! Refinement of the stream machine (R67, R131, R139): a block that stands where the stream machine stands answers each
whole input as the stream machine does and stands there again, and so does a run of all that waits. -/

namespace Sys2Proof

/-- Every command's word decodes to it on this hardware, which has the EXT accessors (R9, R84, R85). -/
@[simp] theorem decode_encode (i : Instr) : decode (encode i) = .legal i := by
  cases i with
  | seed v => simp [decode, decodeWith, encode, operand, opcode]
  | _ => decide

end Sys2Proof

namespace Sys2Proof.Safety

open Sys2Proof.Machine

/-- The block stands at the stream machine's position: on its seed's stream, after as many draws. -/
structure StandsAt (p : StreamPos) (s : State) : Prop where
  onStream : OnStream p.seed s
  draws : s.draws = p.drawn

/-- From `s` to `t` the block gave the responses of the stream machine's move, and stands where that move leads. -/
structure Follows (s : State) (move : StreamPos × List Response) (t : State) : Prop where
  standsAt : StandsAt move.1 t
  responses : t.responses = s.responses ++ move.2

variable {p : StreamPos} {s : State}

theorem standsAt_seeded (v : Word) (s : State) : StandsAt ⟨v, 0⟩ (s.seeded v) := ⟨onStream_seeded v s, rfl⟩

theorem StandsAt.withInbox (h : StandsAt p s) (rest : List Input) : StandsAt p { s with inbox := rest } :=
  ⟨onStream_of_sameGenerator ⟨rfl, rfl, rfl⟩ h.onStream, h.draws⟩

theorem StandsAt.respond (h : StandsAt p s) (e : BitVec 1) (d : Data) : StandsAt p (s.respond e d) :=
  ⟨onStream_of_sameGenerator ⟨rfl, rfl, rfl⟩ h.onStream, h.draws⟩

theorem StandsAt.afterDraw (h : StandsAt p s) : StandsAt ⟨p.seed, p.drawn + 1⟩ s.afterDraw :=
  ⟨onStream_afterDraw h.onStream, by rw [State.afterDraw_draws, h.draws]⟩

theorem StandsAt.drawnWord (h : StandsAt p s) : s.drawnWord = rawDraw p.seed (p.drawn + 1) := by
  rw [drawnWord_of_onStream h.onStream, h.draws]

theorem StreamPos.legal_accessor {i : Instr} (h : i.isAccessor = true) (p : StreamPos) :
    p.legal i = (⟨p.seed, p.drawn + 1⟩, [⟨0#1, accessorResult i (rawDraw p.seed (p.drawn + 1))⟩]) := by
  cases i with
  | seed v => cases h
  | _ => rfl

theorem StreamPos.input_illegal {w : Command} {why : IllegalCause} (h : decode w = .illegal why) (p : StreamPos) :
    p.input (.command w) = (p, [⟨1#1, 0#64⟩]) := by
  simp [StreamPos.input, h]

theorem StreamPos.input_legal {w : Command} {i : Instr} (h : decode w = .legal i) (p : StreamPos) :
    p.input (.command w) = p.legal i := by
  simp [StreamPos.input, h]

theorem exec_follows (i : Instr) (h : StandsAt p s) :
    ∃ t, exec i s = .next t ∧ t.inbox = s.inbox ∧ Follows s (p.legal i) t := by
  obtain ⟨v, rfl, hs⟩ | ⟨ha, -⟩ := exec_cases i s
  · exact ⟨_, hs, rfl, (standsAt_seeded v s).respond _ _, rfl⟩
  · rw [StreamPos.legal_accessor ha, ← h.drawnWord]
    exact ⟨_, exec_accessor ha s, by simp, h.afterDraw.respond _ _, by simp [errOk]⟩

theorem runInput_follows {x : Input} (hx : wholeInput x = true) (h : StandsAt p s) :
    ∃ t, runInput Config.hardware x s = .next t ∧ t.inbox = s.inbox ∧ Follows s (p.input x) t := by
  have reset : Follows s (⟨5489#32, 0⟩, []) s.takeReset := ⟨standsAt_seeded _ s, (List.append_nil _).symm⟩
  cases x with
  | command w =>
    cases hd : decode w with
    | illegal why =>
      rw [StreamPos.input_illegal hd]
      exact ⟨_, runCommand_illegal hd s, rfl, h.respond _ _, rfl⟩
    | legal i =>
      rw [StreamPos.input_legal hd]
      obtain ⟨t, ht, kept⟩ := exec_follows i h
      exact ⟨t, (runCommand_legal hd s).trans ht, kept⟩
  | reset => exact ⟨_, rfl, rfl, reset⟩
  | resetDuring w => exact ⟨_, rfl, rfl, reset⟩
  | powerCycle => exact ⟨_, rfl, rfl, reset⟩
  | partialTransfer width bits => cases hx

/-- A run of everything that waits: the inbox is the list the induction follows. -/
theorem run_follows {inputs : List Input} (hin : s.inbox = inputs) (whole : ∀ x ∈ inputs, wholeInput x = true)
    (h : StandsAt p s) :
    ∃ t, Host.Core.run Sys2Proof.core inputs.length s = .next t ∧ t.inbox = [] ∧ Follows s (p.inputs inputs) t := by
  induction inputs generalizing s p with
  | nil => exact ⟨s, rfl, hin, h, (List.append_nil _).symm⟩
  | cons x rest ih =>
    obtain ⟨wholeFirst, wholeRest⟩ := List.forall_mem_cons.mp whole
    obtain ⟨u, hu, inbox, standsAt, first⟩ := runInput_follows wholeFirst (h.withInbox rest)
    obtain ⟨t, ht, empty, standsAtEnd, later⟩ := ih inbox wholeRest standsAt
    have hstep : step s = .next u := (stepWith_input Config.hardware hin).trans hu
    refine ⟨t, (run_succ rest.length hstep).trans ht, empty, standsAtEnd, ?_⟩
    rw [later, first, List.append_assoc]
    rfl

/-- Settles O31: the run of all that waits follows the stream machine (`run_follows`). -/
theorem blockRefinesTheStreamMachine : Obligations.BlockRefinesTheStreamMachine := by
  unfold Obligations.BlockRefinesTheStreamMachine
  intro s p whole onStream draws
  obtain ⟨t, ht, empty, ⟨onStream', draws'⟩, responses⟩ := run_follows rfl whole ⟨onStream, draws⟩
  exact ⟨t, ht, empty, responses, onStream', draws'⟩

/-- The stream machine answers a list of accessors with the next draws in turn (R67). -/
theorem StreamPos.inputs_accessors {commands : List Instr} (h : ∀ i ∈ commands, i.isAccessor = true) (v : Word)
    (n : Nat) :
    ((⟨v, n⟩ : StreamPos).inputs (commands.map fun i => .command (encode i))).2
      = (commands.zipIdx n).map fun c => ⟨0#1, accessorResult c.1 (rawDraw v (c.2 + 1))⟩ := by
  induction commands generalizing n with
  | nil => rfl
  | cons i rest ih =>
    obtain ⟨accessor, accessors⟩ := List.forall_mem_cons.mp h
    simp [StreamPos.inputs, StreamPos.input_legal (decode_encode i), StreamPos.legal_accessor accessor, ih accessors]

/-- Settles O30: SEED puts the block at the start of the stream, and the accessors then follow the stream machine. -/
theorem kthAccessorUsesKthDraw : Obligations.KthAccessorUsesKthDraw := by
  unfold Obligations.KthAccessorUsesKthDraw
  intro v commands s accessors hin
  set rest : List Input := commands.map fun i => .command (encode i) with hrest
  have length : rest.length = commands.length := List.length_map _
  have whole : ∀ x ∈ rest, wholeInput x = true := List.forall_mem_map.mpr fun _ _ => rfl
  have hstep : step s = .next ((({ s with inbox := rest } : State).seeded v).respond errOk dataNone) :=
    (stepWith_input Config.hardware hin).trans (runCommand_legal (decode_encode (.seed v)) _)
  obtain ⟨t, ht, empty, -, responses⟩ :=
    run_follows (inputs := rest) rfl whole ((standsAt_seeded v { s with inbox := rest }).respond errOk dataNone)
  rw [← length]
  refine ⟨t, (run_succ _ hstep).trans ht, empty, ?_⟩
  rw [responses, hrest, StreamPos.inputs_accessors accessors, State.respond_responses, State.seeded_responses,
    List.append_assoc]
  rfl

end Sys2Proof.Safety
end

section
/-! Several hosts on one block (R67, R68, R229): a command does the same whatever waits behind it, so accepting commands one
turn at a time runs as the one stream they make. -/

namespace Sys2Proof.Machine

theorem State.afterDraw_withInbox (s : State) (rest : List Input) :
    ({ s with inbox := rest } : State).afterDraw = { s.afterDraw with inbox := rest } := by
  simp only [afterDraw, refill]
  split <;> rfl

theorem State.drawnWord_withInbox (s : State) (rest : List Input) :
    ({ s with inbox := rest } : State).drawnWord = s.drawnWord := drawnWord_congr rfl rfl

/-- A command completes, and neither reads nor changes what waits behind it. -/
theorem runCommand_withInbox (cfg : Config) (w : Command) (s : State) :
    ∃ t : State, ∀ rest, runCommand cfg w { s with inbox := rest } = .next { t with inbox := rest } := by
  cases hd : decodeWith cfg w with
  | illegal why => exact ⟨s.takeIllegal, fun rest => runCommand_illegal hd _⟩
  | legal i =>
    simp only [runCommand_legal hd]
    obtain ⟨v, rfl, -⟩ | ⟨ha, -⟩ := exec_cases i s
    · exact ⟨(s.seeded v).respond errOk dataNone, fun rest => exec_seed v _⟩
    · refine ⟨s.afterDraw.respond errOk (Safety.accessorResult i s.drawnWord), fun rest => ?_⟩
      rw [exec_accessor ha, State.afterDraw_withInbox, State.drawnWord_withInbox]
      rfl

/-- Everything a turn can do on a block with nothing waiting: it passes and adds nothing to the serial order, or it carries
out the host's next command, which is next in that order too. -/
theorem SharedPort.turn_cases (h : Nat) {p : SharedPort} (idle : p.block.inbox = []) :
    (p.turn h = .next p ∧ ∀ later, serialise (h :: later) p.hosts = serialise later p.hosts)
      ∨ ∃ (w : Command) (ws : List Command) (b : State), p.turn h = .next ⟨{ b with inbox := [] }, p.hosts.set h ws⟩
        ∧ (∀ rest, step { p.block with inbox := .command w :: rest } = .next { b with inbox := rest })
        ∧ ∀ later, serialise (h :: later) p.hosts = w :: serialise later (p.hosts.set h ws) := by
  have passes : p.accept h = p → p.turn h = .next p := fun e => by
    simp [turn, e, show step p.block = .next p.block from stepWith_idle _ idle]
  match hh : p.hosts[h]? with
  | none => exact .inl ⟨passes (by simp [accept, hh]), fun later => by simp [serialise, hh]⟩
  | some [] => exact .inl ⟨passes (by simp [accept, hh]), fun later => by simp [serialise, hh]⟩
  | some (w :: ws) =>
    obtain ⟨b, hb⟩ := runCommand_withInbox Config.hardware w p.block
    have hstep : ∀ rest, step { p.block with inbox := .command w :: rest } = .next { b with inbox := rest } :=
      fun rest => (stepWith_input Config.hardware (x := .command w) (rest := rest) rfl).trans (hb rest)
    have accepted : p.accept h = ⟨{ p.block with inbox := [.command w] }, p.hosts.set h ws⟩ := by
      simp [accept, hh, State.present, idle]
    exact .inr ⟨w, ws, b, by simp [turn, accepted, hstep], hstep, fun later => by simp [serialise, hh]⟩

theorem SharedPort.run_cons {h : Nat} {p q : SharedPort} (ht : p.turn h = .next q) (later : List Nat) :
    p.run (h :: later) = q.run later := by
  simp [run, ht]

/-- Settles O52, by induction on the schedule: each turn passes, or is the first step of the serial run. -/
theorem everyInterleavingIsASerialRun : Obligations.EveryInterleavingIsASerialRun := by
  unfold Obligations.EveryInterleavingIsASerialRun
  intro schedule p idle
  induction schedule generalizing p with
  | nil =>
    have noneWaits : { p.block with inbox := [] } = p.block := by rw [← idle]
    exact ⟨p, rfl, idle, congrArg _ noneWaits⟩
  | cons h later ih =>
    obtain ⟨passes, same⟩ | ⟨w, ws, b, carried, hstep, next⟩ := p.turn_cases h idle
    · rw [SharedPort.run_cons passes, same]
      exact ih p idle
    · rw [SharedPort.run_cons carried, next]
      obtain ⟨q, hq, empty, serial⟩ := ih ⟨{ b with inbox := [] }, p.hosts.set h ws⟩ rfl
      exact ⟨q, hq, empty, (run_succ _ (hstep _)).trans serial⟩

end Sys2Proof.Machine
end

section
/-! A partial transfer has no step (R61), and SEED twice is SEED once (R64). -/

namespace Sys2Proof.Machine

/-- Settles O14: the one input whose step is refused. -/
theorem partialTransferHasNoStep : Obligations.PartialTransferHasNoStep := by
  unfold Obligations.PartialTransferHasNoStep
  intro s width bits rest hin
  exact stepWith_input Config.hardware hin

/-- Settles O19: SEED overwrites the whole generator with a function of the seed, so a second one changes nothing. -/
theorem seedIsIdempotent : Obligations.SeedIsIdempotent := by
  unfold Obligations.SeedIsIdempotent
  intro v s
  exact ⟨_, _, exec_seed v s, exec_seed v _, rfl, rfl, rfl⟩

end Sys2Proof.Machine
end

section
/-! The command word and its command determine each other (R80, R83, R84, R85): what the decoder answers is read off the three
fields, and a legal word is the encoding of its command. -/

namespace Sys2Proof

variable {cfg : Config} {w : Command} {i : Instr}

@[simp] theorem argField_encode (i : Instr) : argField (encode i) = operand i := argField_commandWord _ _ _
@[simp] theorem rsvField_encode (i : Instr) : rsvField (encode i) = 0#24 := rsvField_commandWord _ _ _
@[simp] theorem opField_encode (i : Instr) : opField (encode i) = opcode i := opField_commandWord _ _ _

/-- A word with a command's fields is that command's word (R80). -/
theorem encode_eq_of_fields (harg : argField w = operand i) (hrsv : rsvField w = 0#24) (hop : opField w = opcode i) :
    encode i = w := by
  rw [← commandWord_fields w, harg, hrsv, hop, encode]

theorem decodeExt_of_wellFormed (hi : i.isExt = true) (h : WellFormed cfg i = true) : decodeExt cfg i = .legal i := by
  have present : cfg.extAccessors = true := by simpa [WellFormed, hi] using h
  simp [decodeExt, present]

/-- The `case op` of R85 answers each accessor the configuration has at that accessor's own OP. -/
theorem decodeAccessor_opcode (hi : i.isAccessor = true) (h : WellFormed cfg i = true) :
    decodeAccessor cfg (opcode i) = .legal i := by
  cases i with
  | seed v => cases hi
  | nextU32 | nextI31 | nextDc => rfl
  | nextDlc | nextDo | nextFc | nextFlc | nextFo | nextBool => exact decodeExt_of_wellFormed rfl h

theorem opcode_ne_seed (hi : i.isAccessor = true) : opcode i ≠ 0x01#8 := by
  cases i with
  | seed v => cases hi
  | _ => decide

theorem operand_accessor (hi : i.isAccessor = true) : operand i = 0#32 := by
  cases i with
  | seed v => cases hi
  | _ => rfl

/-- A command the configuration has is decoded from its own word: SEED by its OP, an accessor by the `case op`. -/
theorem decodeWith_encode (h : WellFormed cfg i = true) : decodeWith cfg (encode i) = .legal i := by
  cases hi : i.isAccessor with
  | false =>
    cases i with
    | seed v => simp [decodeWith, opcode, operand]
    | _ => cases hi
  | true => simp [decodeWith, opcode_ne_seed hi, operand_accessor hi, decodeAccessor_opcode hi h]

/-- The fields of a legal word are its command's, and the configuration has the command (R85). -/
theorem fields_of_decodeWith_legal (h : decodeWith cfg w = .legal i) :
    argField w = operand i ∧ rsvField w = 0#24 ∧ opField w = opcode i ∧ WellFormed cfg i = true := by
  unfold decodeWith at h
  by_cases hrsv : rsvField w = 0#24
  · rw [if_neg (not_not.mpr hrsv)] at h
    by_cases hseed : opField w = 0x01#8
    · rw [if_pos hseed] at h
      cases h
      exact ⟨rfl, hrsv, hseed, rfl⟩
    · rw [if_neg hseed] at h
      by_cases harg : argField w = 0#32
      · rw [if_neg (not_not.mpr harg)] at h
        obtain ⟨hop, hoperand, wf⟩ := decodeAccessor_legal h
        exact ⟨harg.trans hoperand.symm, hrsv, hop, wf⟩
      · rw [if_pos harg] at h
        cases h
  · rw [if_pos hrsv] at h
    cases h

/-- A word is legal exactly as the word of a command the configuration has. -/
theorem decodeWith_legal_iff : decodeWith cfg w = .legal i ↔ encode i = w ∧ WellFormed cfg i = true := by
  constructor
  · intro h
    obtain ⟨harg, hrsv, hop, wf⟩ := fields_of_decodeWith_legal h
    exact ⟨encode_eq_of_fields harg hrsv hop, wf⟩
  · rintro ⟨rfl, wf⟩
    exact decodeWith_encode wf

/-- Settles O2: each command's fields lead the decoder to it (`decodeWith_encode`). -/
theorem decodeOfEncodeIsTheCommand : Obligations.DecodeOfEncodeIsTheCommand := by
  unfold Obligations.DecodeOfEncodeIsTheCommand
  exact fun _ _ wf => decodeWith_encode wf

/-- Settles O3: the fields of a legal word are its command's, and the fields make the word. -/
theorem encodeOfDecodeIsTheWord : Obligations.EncodeOfDecodeIsTheWord := by
  unfold Obligations.EncodeOfDecodeIsTheWord
  exact fun _ _ _ h => decodeWith_legal_iff.mp h

/-- Settles O1: eleven fixed words, each decoded by evaluation. -/
theorem decoderReadsTheSpecsWords : Obligations.DecoderReadsTheSpecsWords := by
  unfold Obligations.DecoderReadsTheSpecsWords
  decide

end Sys2Proof
end

section
/-! The two other forms the spec gives legality: the match and mask values of the opcode table (R84), and the four conditions
that make a word illegal (R90). -/

namespace Sys2Proof

variable {cfg : Config} {w : Command} {i : Instr} {row : OpcodeRow}

/-- Each command's word matches a row of the table, which has its mnemonic and its option (R84). -/
theorem exists_tableRow (i : Instr) : Laws.TableRow.Statement i :=
  match i with
  | .seed v => Laws.TableRow.seed v
  | .nextU32 => Laws.TableRow.nextU32
  | .nextI31 => Laws.TableRow.nextI31
  | .nextDc => Laws.TableRow.nextDc
  | .nextDlc => Laws.TableRow.nextDlc
  | .nextDo => Laws.TableRow.nextDo
  | .nextFc => Laws.TableRow.nextFc
  | .nextFlc => Laws.TableRow.nextFlc
  | .nextFo => Laws.TableRow.nextFo
  | .nextBool => Laws.TableRow.nextBool

theorem exists_row_of_legal (h : decodeWith cfg w = .legal i) :
    ∃ row ∈ opcodeTable, row.accepts cfg w = true ∧ row.mnemonic = i.mnemonic := by
  obtain ⟨rfl, wf⟩ := decodeWith_legal_iff.mp h
  obtain ⟨row, mem, name, ext, bits⟩ := exists_tableRow i
  refine ⟨row, mem, ?_, name⟩
  unfold OpcodeRow.accepts
  rw [decide_eq_true bits, ext]
  exact wf

/-- The first row of the opcode table: any ARG, RSV = 0, OP = 0x01 (R84). -/
def seedRow : OpcodeRow := ⟨"SEED", 0x0000000000000001#64, 0x00000000FFFFFFFF#64, false⟩

/-- The row of an accessor, whose mask leaves no bit free (R84). -/
def accessorRow (i : Instr) : OpcodeRow := ⟨i.mnemonic, encode i, BitVec.allOnes 64, i.isExt⟩

/-- The nine accessors, in the order of the opcode table (R84). -/
def accessors : List Instr :=
  [.nextU32, .nextI31, .nextDc, .nextDlc, .nextDo, .nextFc, .nextFlc, .nextFo, .nextBool]

theorem isAccessor_of_mem (h : i ∈ accessors) : i.isAccessor = true :=
  (by decide : ∀ i ∈ accessors, i.isAccessor = true) i h

/-- The opcode table by its two kinds of rows. -/
theorem opcodeTable_eq : opcodeTable = seedRow :: accessors.map accessorRow := by decide

theorem accessorRow_accepts (i : Instr) :
    (accessorRow i).accepts cfg w = true ↔ encode i = w ∧ WellFormed cfg i = true := by
  unfold OpcodeRow.accepts accessorRow
  rw [BitVec.and_allOnes, Bool.and_eq_true, decide_eq_true_iff, eq_comm]
  rfl

/-- The mask of SEED keeps RSV and OP and clears ARG. -/
theorem commandWord_and_seedMask (arg : Word) (rsv : BitVec 24) (op : BitVec 8) :
    commandWord arg rsv op &&& seedRow.bitsMask = commandWord 0#32 rsv op := by
  rw [show seedRow.bitsMask = commandWord 0#32 (BitVec.allOnes 24) (BitVec.allOnes 8) by decide]
  apply BitVec.eq_of_getLsbD_eq
  intro k hk
  rw [BitVec.getLsbD_and]
  simp only [getLsbD_commandWord]
  split
  next h => rw [BitVec.getLsbD_allOnes, decide_eq_true h, Bool.and_true]
  next h =>
    split
    next => rw [BitVec.getLsbD_allOnes, decide_eq_true (by omega : k - 8 < 24), Bool.and_true]
    next => simp

theorem seedRow_accepts (h : seedRow.accepts cfg w = true) : encode (.seed (argField w)) = w := by
  have bits : w &&& seedRow.bitsMask = commandWord 0#32 0#24 0x01#8 :=
    of_decide_eq_true (Bool.and_eq_true_iff.mp h).1
  rw [← commandWord_fields w, commandWord_and_seedMask] at bits
  have hrsv := congrArg rsvField bits
  have hop := congrArg opField bits
  simp only [rsvField_commandWord, opField_commandWord] at hrsv hop
  exact encode_eq_of_fields rfl hrsv hop

theorem exists_legal_of_row (mem : row ∈ opcodeTable) (h : row.accepts cfg w = true) :
    ∃ i, decodeWith cfg w = .legal i ∧ row.mnemonic = i.mnemonic := by
  rw [opcodeTable_eq, List.mem_cons, List.mem_map] at mem
  obtain rfl | ⟨i, -, rfl⟩ := mem
  · exact ⟨.seed (argField w), decodeWith_legal_iff.mpr ⟨seedRow_accepts h, rfl⟩, rfl⟩
  · exact ⟨i, decodeWith_legal_iff.mpr ((accessorRow_accepts i).mp h), rfl⟩

/-- An accepting row names the command of the word. -/
theorem mnemonic_of_row (hd : decodeWith cfg w = .legal i) (mem : row ∈ opcodeTable) (h : row.accepts cfg w = true) :
    row.mnemonic = i.mnemonic := by
  obtain ⟨j, hj, name⟩ := exists_legal_of_row mem h
  cases hd.symm.trans hj
  exact name

/-- No two rows of the table have one mnemonic. -/
theorem row_eq_of_mnemonic_eq {row' : OpcodeRow} (mem : row ∈ opcodeTable) (mem' : row' ∈ opcodeTable)
    (h : row.mnemonic = row'.mnemonic) : row = row' :=
  List.inj_on_of_nodup_map (f := OpcodeRow.mnemonic) (by decide) mem mem' h

/-- Settles O4: a legal word's row has its command's mnemonic, a row that accepts makes the word legal, and mnemonics tell rows
apart. -/
theorem legalExactlyWhenOneTableRowAccepts : Obligations.LegalExactlyWhenOneTableRowAccepts := by
  unfold Obligations.LegalExactlyWhenOneTableRowAccepts
  refine fun cfg w => ⟨⟨?_, ?_⟩, fun i row hd mem accepts => ⟨mnemonic_of_row hd mem accepts, ?_⟩⟩
  · rintro ⟨i, hd⟩
    obtain ⟨row, mem, accepts, name⟩ := exists_row_of_legal hd
    exact ⟨row, ⟨mem, accepts⟩, fun row' ⟨mem', accepts'⟩ =>
      row_eq_of_mnemonic_eq mem' mem ((mnemonic_of_row hd mem' accepts').trans name.symm)⟩
  · rintro ⟨row, ⟨mem, accepts⟩, -⟩
    obtain ⟨i, hd, -⟩ := exists_legal_of_row mem accepts
    exact ⟨i, hd⟩
  · obtain ⟨-, -, hop, -⟩ := fields_of_decodeWith_legal hd
    exact hop

open Safety

theorem opcode_mem_table (i : Instr) :
    opcode i ∈ [0x01#8, 0x10#8, 0x11#8, 0x12#8, 0x13#8, 0x14#8, 0x18#8, 0x19#8, 0x1A#8, 0x1C#8] := by
  cases i <;> simp [opcode]

theorem opcode_mem_ext_iff (i : Instr) :
    opcode i ∈ [0x13#8, 0x14#8, 0x18#8, 0x19#8, 0x1A#8, 0x1C#8] ↔ i.isExt = true := by
  cases i <;> simp [opcode, Instr.isExt]

/-- An OP of the table is that of SEED or of an accessor (R84). -/
theorem opcode_of_mem_table {op : BitVec 8}
    (h : op ∈ [0x01#8, 0x10#8, 0x11#8, 0x12#8, 0x13#8, 0x14#8, 0x18#8, 0x19#8, 0x1A#8, 0x1C#8]) :
    op = 0x01#8 ∨ ∃ i, i.isAccessor = true ∧ opcode i = op := by
  have kinds : op ∈ 0x01#8 :: accessors.map opcode := h
  rw [List.mem_cons, List.mem_map] at kinds
  obtain seed | ⟨i, mem, hop⟩ := kinds
  · exact .inl seed
  · exact .inr ⟨i, isAccessor_of_mem mem, hop⟩

/-- A legal word meets none of the four conditions of R90. -/
theorem not_illegalWord_of_legal (h : decodeWith cfg w = .legal i) : ¬ IllegalWord cfg w := by
  obtain ⟨harg, hrsv, hop, wf⟩ := fields_of_decodeWith_legal h
  unfold IllegalWord
  rw [harg, hrsv, hop]
  rintro (rsv | unknown | ⟨ext, absent⟩ | ⟨accessor, arg⟩)
  · exact rsv rfl
  · exact unknown (opcode_mem_table i)
  · rw [opcode_mem_ext_iff] at ext
    simp [WellFormed, ext, absent] at wf
  · cases i with
    | seed v => exact accessor rfl
    | _ => exact arg rfl

/-- A word that meets none of the four conditions of R90 has the fields of a command that the configuration has. -/
theorem exists_legal_of_not_illegalWord (h : ¬ IllegalWord cfg w) : ∃ i, decodeWith cfg w = .legal i := by
  simp only [IllegalWord, not_or, not_and, not_not] at h
  obtain ⟨hrsv, known, ext, arg⟩ := h
  obtain hop | ⟨i, hi, hop⟩ := opcode_of_mem_table known
  · exact ⟨.seed (argField w), decodeWith_legal_iff.mpr ⟨encode_eq_of_fields rfl hrsv hop, rfl⟩⟩
  · have harg : argField w = operand i :=
      (arg (hop ▸ opcode_ne_seed hi)).trans (operand_accessor hi).symm
    have wf : WellFormed cfg i = true := by
      rw [← hop, opcode_mem_ext_iff] at ext
      cases he : i.isExt with
      | false => simp [WellFormed, he]
      | true => simpa [WellFormed, he] using ext he
    exact ⟨i, decodeWith_legal_iff.mpr ⟨encode_eq_of_fields harg hrsv hop.symm, wf⟩⟩

end Sys2Proof
end

section
/-! The step that a command word makes (R85, R86, R90): a legal word's step is its command's rule, an illegal word's is the one
Illegal response, and either gives exactly one response. -/

namespace Sys2Proof.Machine

variable {cfg : Config} {s : State} {w : Command} {rest : List Input}

theorem stepWith_command_legal {i : Instr} (hin : s.inbox = .command w :: rest) (h : decodeWith cfg w = .legal i) :
    stepWith cfg s = exec i { s with inbox := rest } :=
  (stepWith_input cfg hin).trans (runCommand_legal h _)

theorem stepWith_command_illegal {why : IllegalCause} (hin : s.inbox = .command w :: rest)
    (h : decodeWith cfg w = .illegal why) :
    stepWith cfg s = .next ({ s with inbox := rest } : State).takeIllegal :=
  (stepWith_input cfg hin).trans (runCommand_illegal h _)

/-- Every command completes with one response of ERR = 0, whose DATA is its own function of the draw (R86, R87). -/
theorem exec_responds (i : Instr) (s : State) :
    ∃ t, exec i s = .next t ∧ t.inbox = s.inbox
      ∧ t.responses = s.responses ++ [⟨errOk, Safety.accessorResult i s.drawnWord⟩] := by
  obtain ⟨v, rfl, hs⟩ | ⟨ha, -⟩ := exec_cases i s
  · exact ⟨_, hs, rfl, rfl⟩
  · exact ⟨_, exec_accessor ha s, by simp, by simp⟩

/-- Settles O6: the step takes the word off the port and runs the command it decodes to. -/
theorem stepRunsTheDecodedCommand : Obligations.StepRunsTheDecodedCommand := by
  unfold Obligations.StepRunsTheDecodedCommand
  exact fun _ _ _ _ hin hd => stepWith_command_legal hin hd

/-- Settles O5: an illegal word does not decode to a command, and the words that do not are those of the four conditions. -/
theorem illegalWordsAreThoseOfRule90 : Obligations.IllegalWordsAreThoseOfRule90 := by
  unfold Obligations.IllegalWordsAreThoseOfRule90
  refine fun cfg s w rest hin => ⟨fun illegal => ?_, fun legal => ?_⟩
  · cases hd : decodeWith cfg w with
    | illegal why => exact stepWith_command_illegal hin hd
    | legal i => exact absurd illegal (not_illegalWord_of_legal hd)
  · obtain ⟨i, hd⟩ := exists_legal_of_not_illegalWord legal
    exact ⟨i, hd, (decodeWith_legal_iff.mp hd).2⟩

/-- Settles O7: the response of a legal word is its command's, that of an illegal word the Illegal response, which comes with
no other change. -/
theorem everyCommandGetsOneResponse : Obligations.EveryCommandGetsOneResponse := by
  unfold Obligations.EveryCommandGetsOneResponse
  intro s w rest hin
  cases hd : decode w with
  | illegal why =>
    exact ⟨_, ⟨errIllegal, dataNone⟩, stepWith_command_illegal hin hd, rfl, rfl, by simp [errIllegal],
      by simp [errIllegal], fun _ => ⟨rfl, rfl, rfl⟩⟩
  | legal i =>
    obtain ⟨t, ht, inbox, responses⟩ := exec_responds i { s with inbox := rest }
    exact ⟨t, _, (stepWith_command_legal hin hd).trans ht, inbox, responses, by simp [errOk], by simp [errOk],
      by simp [errOk]⟩

end Sys2Proof.Machine
end

section
/-! The host side's assembly (R92, R93): what a run of plain commands adds to the stream, and the forms of the spec. -/

namespace Sys2Proof.Machine

/-- Commands without directives are added in order to the innermost open repetition. -/
theorem expandLines_emits (commands : List Command) (ls : List AsmLine) (done : List Command)
    (opened : List (Nat × List Command)) :
    expandLines (commands.map .emit ++ ls) done opened = expandLines ls (done ++ commands) opened := by
  induction commands generalizing done with
  | nil => simp
  | cons w ws ih => simp [expandLines, ih]

theorem expandLines_rept (n : Nat) (ls : List AsmLine) (done : List Command) (opened : List (Nat × List Command)) :
    expandLines (.rept n :: ls) done opened = expandLines ls [] ((n, done) :: opened) := rfl

theorem expandLines_endr (n : Nat) (ls : List AsmLine) (done before : List Command)
    (opened : List (Nat × List Command)) :
    expandLines (.endr :: ls) done ((n, before) :: opened)
      = expandLines ls (before ++ (List.replicate n done).flatten) opened := rfl

/-- Settles O55: the three runs of commands, with the directives between them. -/
theorem repetitionIsExpandedBeforeTheBlock : Obligations.RepetitionIsExpandedBeforeTheBlock := by
  unfold Obligations.RepetitionIsExpandedBeforeTheBlock
  intro n before body after
  calc expandLines (before.map .emit ++ .rept n :: body.map .emit ++ .endr :: after.map .emit) [] []
      = expandLines (body.map .emit ++ .endr :: after.map .emit) [] [(n, before)] := by
        rw [List.append_assoc, expandLines_emits, List.cons_append, expandLines_rept, List.nil_append]
    _ = expandLines (after.map .emit ++ []) (before ++ (List.replicate n body).flatten) [] := by
        rw [expandLines_emits, expandLines_endr, List.nil_append, List.append_nil]
    _ = some (before ++ (List.replicate n body).flatten ++ after) := by
        rw [expandLines_emits]; rfl

/-- Settles O54: seven fixed texts, each assembled by evaluation. -/
theorem assemblyFormsGiveTheSpecsWords : Obligations.AssemblyFormsGiveTheSpecsWords := by
  unfold Obligations.AssemblyFormsGiveTheSpecsWords
  decide +kernel

end Sys2Proof.Machine
end

section
/-! The parity of a word (R210, R211): each step of the XOR fold keeps the parity of the set bits while it halves the range they
are counted over. -/

namespace Sys2Proof.Machine

theorem getLsbD_foldBy (n : Nat) (b : Word) (i : Nat) : (foldBy n b).getLsbD i = (b.getLsbD i ^^ b.getLsbD (n + i)) := by
  simp [foldBy]

/-- The number of set bits among the lowest `n`. -/
def setBitsBelow (n : Nat) (b : Word) : Nat := (List.range n).countP b.getLsbD

/-- Counting where exactly one of two holds keeps the parity of the two counts' sum. -/
theorem countP_xor_mod_two {α : Type} (p q : α → Bool) (l : List α) :
    l.countP (fun x => p x ^^ q x) % 2 = (l.countP p + l.countP q) % 2 := by
  induction l with
  | nil => rfl
  | cons x xs ih =>
    simp only [List.countP_cons]
    cases p x <;> cases q x <;> simp <;> omega

/-- Folding by `n` keeps the parity of the lowest `2 n` bits, in the lowest `n` (R210). -/
theorem setBitsBelow_foldBy (n : Nat) (b : Word) : setBitsBelow n (foldBy n b) % 2 = setBitsBelow (n + n) b % 2 := by
  have fold : (foldBy n b).getLsbD = fun i => b.getLsbD i ^^ b.getLsbD (n + i) := funext (getLsbD_foldBy n b)
  rw [setBitsBelow, fold, countP_xor_mod_two, setBitsBelow, List.range_add, List.countP_append, List.countP_map]
  rfl

theorem setBits_eq (y : Word) : Safety.setBits y = setBitsBelow 32 y := List.countP_eq_length_filter.symm

/-- The five folds bring the parity of all 32 bits to bit 0 (R211). -/
theorem xorFold_eq_parity (y : Word) : xorFold y = decide (Safety.setBits y % 2 = 1) := by
  have lowest : ∀ b : Word, b.getLsbD 0 = decide (setBitsBelow 1 b % 2 = 1) := fun b => by
    show b.getLsbD 0 = decide ([0].countP b.getLsbD % 2 = 1)
    rw [List.countP_singleton]
    cases b.getLsbD 0 <;> rfl
  rw [xorFold, lowest, setBits_eq, setBitsBelow_foldBy 1, setBitsBelow_foldBy 2, setBitsBelow_foldBy 4,
    setBitsBelow_foldBy 8, setBitsBelow_foldBy 16]

/-- NEXT.BOOL gives 1 for odd parity and 0 for even (R210). -/
theorem resultBool_eq_parity (y : Word) : resultBool y = if Safety.setBits y % 2 = 1 then 1#64 else 0#64 := by
  simp [resultBool, dataOfBool, xorFold_eq_parity]

end Sys2Proof.Machine
end

section
/-! The floating-point results are finite (R87, R175): a dyadic value in the normal range of a format rounds to a normal datum,
whose encoding stands for it, and every value the accessors round is of that kind, or 0. -/

namespace Sys2Proof.Machine

namespace Format

variable (f : Format) {n : Nat} {e : Int}

/-- The exponent of a rounded dyadic value in the normal range: its highest bit is the significand's. -/
theorem round_exp (h : 0 < n) (hn : f.emin ≤ Nat.log2 n + e) :
    (f.round ⟨n, 1, e⟩).exp = Nat.log2 n + e - ((f.prec : Int) - 1) := by
  rw [round_dyadic f h hn]

/-- A rounded dyadic value in the normal range has a full significand. -/
theorem le_round_sig (hp : 1 ≤ f.prec) (h : 0 < n) (hn : f.emin ≤ Nat.log2 n + e) :
    2 ^ (f.prec - 1) ≤ (f.round ⟨n, 1, e⟩).sig := by
  rw [round_dyadic f h hn]
  set a := ((f.prec : Int) - 1 - Nat.log2 n).toNat with ha
  set b := ((Nat.log2 n : Int) - ((f.prec : Int) - 1)).toNat with hb
  have room : 2 ^ (f.prec - 1) * 2 ^ b ≤ n * 2 ^ a := calc
    2 ^ (f.prec - 1) * 2 ^ b = 2 ^ Nat.log2 n * 2 ^ a := by
      rw [← Nat.pow_add, ← Nat.pow_add]
      congr 1
      omega
    _ ≤ n * 2 ^ a := Nat.mul_le_mul_right _ (Nat.log2_self_le (by omega))
  have near := roundQuotient_le (n * 2 ^ a) (Nat.two_pow_pos b)
  have : 2 * 2 ^ (f.prec - 1) ≤ 2 * roundQuotient (n * 2 ^ a) (2 ^ b) + 1 :=
    Nat.le_of_mul_le_mul_right (by linarith) (Nat.two_pow_pos b)
  show 2 ^ (f.prec - 1) ≤ roundQuotient (n * 2 ^ a) (2 ^ b)
  omega

/-- Rounding moves the leading exponent up by at most 1. -/
theorem leading_exponent_round (hp : 1 ≤ f.prec) (h : 0 < n) (hn : f.emin ≤ Nat.log2 n + e) :
    Nat.log2 n + e ≤ Nat.log2 (f.round ⟨n, 1, e⟩).sig + (f.round ⟨n, 1, e⟩).exp
      ∧ Nat.log2 (f.round ⟨n, 1, e⟩).sig + (f.round ⟨n, 1, e⟩).exp ≤ Nat.log2 n + e + 1 := by
  have full := f.le_round_sig hp h hn
  have nonzero : (f.round ⟨n, 1, e⟩).sig ≠ 0 := by
    have := Nat.two_pow_pos (f.prec - 1)
    omega
  have low : f.prec - 1 ≤ Nat.log2 (f.round ⟨n, 1, e⟩).sig := (Nat.le_log2 nonzero).mpr full
  have high : Nat.log2 (f.round ⟨n, 1, e⟩).sig < f.prec + 1 :=
    (Nat.log2_lt nonzero).mpr ((f.round_sig_le (x := ⟨n, 1, e⟩) one_ne_zero).trans_lt
      (Nat.pow_lt_pow_right (by norm_num) (by omega)))
  rw [f.round_exp h hn]
  omega

/-- A dyadic value in the normal range rounds to a normal datum, unless it is so large that rounding could reach the range's
end. -/
theorem round_normal (hp : 1 ≤ f.prec) (h : 0 < n) (hn : f.emin ≤ Nat.log2 n + e) (hx : Nat.log2 n + e < f.emax) :
    0 < (f.round ⟨n, 1, e⟩).sig ∧ (f.round ⟨n, 1, e⟩).sig ≤ 2 ^ f.prec
      ∧ f.emin ≤ Nat.log2 (f.round ⟨n, 1, e⟩).sig + (f.round ⟨n, 1, e⟩).exp
      ∧ Nat.log2 (f.round ⟨n, 1, e⟩).sig + (f.round ⟨n, 1, e⟩).exp ≤ f.emax := by
  obtain ⟨low, high⟩ := f.leading_exponent_round hp h hn
  exact ⟨(Nat.two_pow_pos _).trans_le (f.le_round_sig hp h hn), f.round_sig_le one_ne_zero, by omega, by omega⟩

/-- The unit in the last place of a rounded integer of at most `k` bits, scaled by `2 ^ e`. -/
theorem round_exp_bounds {k : Nat} (h : 0 < n) (hk : n < 2 ^ k) (he : f.emin ≤ e) :
    e - ((f.prec : Int) - 1) ≤ (f.round ⟨n, 1, e⟩).exp ∧ (f.round ⟨n, 1, e⟩).exp ≤ k + e - f.prec := by
  have hlog : Nat.log2 n < k := (Nat.log2_lt h.ne').mpr hk
  rw [f.round_exp h (by omega)]
  omega

end Format

/-- The encoding of a rounded dyadic value below `2 ^ 1023` stands for the rounded datum (R14). -/
theorem value64_rn64 {n k : Nat} {e : Int} (hn : n < 2 ^ k) (hlo : -1022 ≤ e) (hhi : k + e ≤ 1023) :
    value64 (f64bits (rn64 ⟨n, 1, e⟩)) = some (rn64 ⟨n, 1, e⟩).real.toRat := by
  rcases Nat.eq_zero_or_pos n with rfl | h
  · rw [rn64, Format.round_zero, Datum.real_toRat, Nat.cast_zero, zero_mul]
    exact value64_zero
  · have hlog : Nat.log2 n < k := (Nat.log2_lt h.ne').mpr hn
    obtain ⟨pos, fits, low, high⟩ := binary64.round_normal (e := e) (by decide) h (by simp only [binary64]; omega)
      (by simp only [binary64]; omega)
    exact value64_f64bits pos fits low high

/-- The encoding of a rounded dyadic value below `2 ^ 127` stands for the rounded datum (R14). -/
theorem value32_rn32 {n k : Nat} {e : Int} (hn : n < 2 ^ k) (hlo : -126 ≤ e) (hhi : k + e ≤ 127) :
    value32 (f32bits (rn32 ⟨n, 1, e⟩)) = some (rn32 ⟨n, 1, e⟩).real.toRat := by
  rcases Nat.eq_zero_or_pos n with rfl | h
  · rw [rn32, Format.round_zero, Datum.real_toRat, Nat.cast_zero, zero_mul]
    exact value32_zero
  · have hlog : Nat.log2 n < k := (Nat.log2_lt h.ne').mpr hn
    obtain ⟨pos, fits, low, high⟩ := binary32.round_normal (e := e) (by decide) h (by simp only [binary32]; omega)
      (by simp only [binary32]; omega)
    exact value32_f32bits pos fits low high

/-! ### The double-precision results -/

theorem mul_lt_two_pow_add {m j p k : Nat} (hm : m ≤ 2 ^ p) (hj : j < 2 ^ k) : m * j < 2 ^ (p + k) := by
  rw [Nat.pow_add]
  exact (Nat.mul_le_mul_right _ hm).trans_lt (Nat.mul_lt_mul_of_pos_left hj (Nat.two_pow_pos p))

theorem resultDc_finite (y : Word) : ∃ q, value64 (resultDc y) = some q := by
  rw [resultDc, dataOfDouble, doubleClosed, scaleDc_eq, realOfWord_eq, Datum.real_mk, mul_dyadic]
  exact ⟨_, value64_rn64 (mul_lt_two_pow_add y.isLt.le (by decide : _ < 2 ^ 53)) (by decide) (by decide)⟩

/-- A datum of binary64 times `C_LC` rounds to a finite result where its exponent is that of a draw, or of a draw with 0.5
added. -/
theorem scaledDlc_finite {d : Datum} (fits : d.sig ≤ 2 ^ 53) (low : -53 ≤ d.exp) (high : d.exp ≤ 0) :
    ∃ q, value64 (f64bits (rn64 (d.real.mul scaleDlc.real))) = some q := by
  obtain ⟨m, k⟩ := d
  rw [scaleDlc_eq, Datum.real_mk, Datum.real_mk, mul_dyadic]
  dsimp only at fits low high
  exact ⟨_, value64_rn64 (mul_lt_two_pow_add fits (by decide : _ < 2 ^ 53)) (by omega) (by omega)⟩

theorem resultDlc_finite (y : Word) : ∃ q, value64 (resultDlc y) = some q :=
  scaledDlc_finite (d := ⟨y.toNat, 0⟩) (y.isLt.le.trans (by decide)) (show (-53 : Int) ≤ 0 by decide) le_rfl

/-- The sum of a dyadic value and 0.5, over the smaller of the two units. -/
theorem add_half (m : Nat) (e : Int) : (Exact.mk m 1 e).add Exact.half
    = ⟨m * 2 ^ (e - min e (-1)).toNat + 2 ^ (-1 - min e (-1)).toNat, 1, min e (-1)⟩ := by
  simp [Exact.add, Exact.half]

theorem resultDo_finite (y : Word) : ∃ q, value64 (resultDo y) = some q := by
  have sum : (realOfWord y).add Exact.half = ⟨y.toNat * 2 + 1, 1, -1⟩ := add_half y.toNat 0
  have bound : y.toNat * 2 + 1 < 2 ^ 33 := by have := y.isLt; omega
  obtain ⟨low, high⟩ := binary64.round_exp_bounds (e := -1) (by omega) bound (by decide)
  rw [resultDo, dataOfDouble, doubleOpen, sum]
  exact scaledDlc_finite (binary64.round_sig_le one_ne_zero) low (high.trans (by decide))

/-! ### The single-precision results -/

/-- The draw converted to binary32: at most 24 significant bits, and an exponent that leaves room for the draw's 32 (R190). -/
theorem singleOfWord_bounds (y : Word) :
    (singleOfWord y).sig ≤ 2 ^ 24 ∧ -23 ≤ (singleOfWord y).exp ∧ (singleOfWord y).exp ≤ 8 := by
  refine ⟨binary32.round_sig_le one_ne_zero, ?_⟩
  rw [singleOfWord, realOfWord_eq, rn32]
  rcases Nat.eq_zero_or_pos y.toNat with h | h
  · rw [h, Format.round_zero]
    decide
  · exact binary32.round_exp_bounds h y.isLt (by decide)

/-- A datum of binary32 times 2^-32 rounds to a finite result where its exponent is that of a draw, or of a draw with 0.5
added. -/
theorem scaledFlc_finite {d : Datum} (fits : d.sig ≤ 2 ^ 24) (low : -46 ≤ d.exp) (high : d.exp ≤ 10) :
    ∃ q, value32 (f32bits (rn32 (d.real.mul scaleFlc.real))) = some q := by
  obtain ⟨m, k⟩ := d
  rw [scaleFlc_eq, Datum.real_mk, Datum.real_mk, mul_dyadic]
  dsimp only at fits low high
  exact ⟨_, value32_rn32 (mul_lt_two_pow_add fits (by decide : _ < 2 ^ 24)) (by omega) (by omega)⟩

theorem singleLeftClosed_finite (y : Word) : ∃ q, value32 (f32bits (singleLeftClosed y)) = some q := by
  obtain ⟨fits, low, high⟩ := singleOfWord_bounds y
  exact scaledFlc_finite fits (by omega) (by omega)

/-- The two constants of R193 are one, so NEXT.FC and NEXT.FLC give one result (R191). -/
theorem singleClosed_eq (y : Word) : singleClosed y = singleLeftClosed y := by
  rw [singleClosed, singleLeftClosed, scaleFc_eq, scaleFlc_eq]

/-- With 0.5 added, a converted draw needs at most 34 bits above the smaller unit (R192). -/
theorem singleOfWord_add_half (y : Word) : ∃ (n : Nat) (e : Int),
    (singleOfWord y).real.add Exact.half = ⟨n, 1, e⟩ ∧ 0 < n ∧ n < 2 ^ 34 ∧ -23 ≤ e ∧ e ≤ -1 := by
  obtain ⟨fits, low, high⟩ := singleOfWord_bounds y
  refine ⟨_, _, add_half (singleOfWord y).sig (singleOfWord y).exp, Nat.add_pos_right _ (Nat.two_pow_pos _), ?_, by omega,
    by omega⟩
  generalize (singleOfWord y).sig = m, (singleOfWord y).exp = k at *
  have shifted : m * 2 ^ (k - min k (-1)).toNat ≤ 2 ^ 24 * 2 ^ 9 :=
    Nat.mul_le_mul fits (Nat.pow_le_pow_right (by decide) (by omega))
  have half : 2 ^ (-1 - min k (-1)).toNat ≤ 2 ^ 22 := Nat.pow_le_pow_right (by decide) (by omega)
  omega

theorem singleOpen_finite (y : Word) : ∃ q, value32 (f32bits (singleOpen y)) = some q := by
  obtain ⟨n, e, sum, pos, bound, hlo, hhi⟩ := singleOfWord_add_half y
  have exponent : e - 23 ≤ (rn32 ⟨n, 1, e⟩).exp ∧ (rn32 ⟨n, 1, e⟩).exp ≤ 34 + e - 24 :=
    binary32.round_exp_bounds pos bound (show -126 ≤ e by omega)
  rw [singleOpen, sum]
  exact scaledFlc_finite (binary32.round_sig_le one_ne_zero) (by omega) (by omega)

end Sys2Proof.Machine
end

section
/-! DATA of each command's response (R87). -/

namespace Sys2Proof.Machine

/-- NEXT.I31's result has bit 31 clear, so that its zero and sign extensions agree (R87, R160). -/
theorem resultI31_extends (y : Word) :
    (y >>> 1).msb = false ∧ resultI31 y = (y >>> 1).setWidth 64 ∧ resultI31 y = (y >>> 1).signExtend 64 := by
  have hmsb : (y >>> 1).msb = false := by simp [BitVec.msb_ushiftRight]
  exact ⟨hmsb, rfl, (BitVec.signExtend_eq_setWidth_of_msb_false hmsb).symm⟩

theorem doubleResults_finite {i : Instr} (h : i ∈ [Instr.nextDc, .nextDlc, .nextDo]) (y : Word) :
    ∃ q, value64 (Safety.accessorResult i y) = some q := by
  simp only [List.mem_cons, List.not_mem_nil, or_false] at h
  obtain rfl | rfl | rfl := h
  · exact resultDc_finite y
  · exact resultDlc_finite y
  · exact resultDo_finite y

theorem singleResults_finite {i : Instr} (h : i ∈ [Instr.nextFc, .nextFlc, .nextFo]) (y : Word) :
    ∃ (b : BitVec 32) (q : ℚ), Safety.accessorResult i y = b.setWidth 64 ∧ value32 b = some q := by
  simp only [List.mem_cons, List.not_mem_nil, or_false] at h
  obtain rfl | rfl | rfl := h
  · obtain ⟨q, hq⟩ := singleLeftClosed_finite y
    exact ⟨_, q, rfl, by rw [singleClosed_eq, hq]⟩
  · obtain ⟨q, hq⟩ := singleLeftClosed_finite y
    exact ⟨_, q, rfl, hq⟩
  · obtain ⟨q, hq⟩ := singleOpen_finite y
    exact ⟨_, q, rfl, hq⟩

/-- Settles O48: the response's DATA is the command's function of the draw (`exec_responds`), and each function's results are
of its row's form. -/
theorem resultsFitTheirPlaceInData : Obligations.ResultsFitTheirPlaceInData := by
  unfold Obligations.ResultsFitTheirPlaceInData
  refine ⟨fun i s => ?_, fun s w rest why hin hd => ⟨_, stepWith_command_illegal hin hd, rfl⟩⟩
  obtain ⟨t, ht, -, responses⟩ := exec_responds i s
  refine ⟨t, _, ht, responses, ?_, ?_, ?_, fun double => doubleResults_finite double _,
    fun single => singleResults_finite single _, ?_⟩
  · rintro seed rfl
    rfl
  · rintro rfl
    rfl
  · rintro rfl
    exact ⟨_, resultI31_extends s.drawnWord⟩
  · rintro rfl
    exact resultBool_eq_parity s.drawnWord

end Sys2Proof.Machine
end

section
/-! SEED (R110, R111): the seeded words one after the other, the word of the command, and the first draw behind it. -/

namespace Sys2Proof.Machine

theorem wordAt_initWords_zero (v : Word) : wordAt (initWords v) 0 = v := wordAt_initWords v (by omega)

/-- Each seeded word is the recurrence of the one before it (R111). -/
theorem wordAt_initWords_succ (v : Word) {k : Nat} (h : k + 1 < 624) :
    wordAt (initWords v) (k + 1)
      = Config.seedMultiplier * (wordAt (initWords v) k ^^^ (wordAt (initWords v) k >>> 30))
        + BitVec.ofNat 32 (k + 1) := by
  rw [wordAt_initWords v h, wordAt_initWords v (by omega : k < 624), initWord_succ]

/-- Settles O17: word 0 is the seed, and a later index has one before it. -/
theorem seedingFollowsTheRecurrence : Obligations.SeedingFollowsTheRecurrence := by
  unfold Obligations.SeedingFollowsTheRecurrence
  refine fun v s => ⟨wordAt_initWords_zero v, fun i hpos hle => ?_, s.seeded_mt v, s.seeded_idx v⟩
  obtain ⟨k, rfl⟩ := Nat.exists_eq_add_of_le' hpos
  exact wordAt_initWords_succ v (by omega)

/-- The word of SEED has OP = 0x01 and RSV = 0, whatever the seed (R110). -/
theorem encode_seed_and_mask (v : Word) : encode (.seed v) &&& 0x00000000FFFFFFFF#64 = 0x0000000000000001#64 :=
  (commandWord_and_seedMask v 0#24 0x01#8).trans (by decide)

/-- An accessor that follows SEED responds from the first raw draw of the seed (R67, R110). -/
theorem seed_then_accessor (v : Word) {i : Instr} (h : i.isAccessor = true) (s : State) :
    ∃ t u, exec (.seed v) s = .next t ∧ exec i t = .next u
      ∧ u.responses = s.responses ++ [⟨errOk, dataNone⟩, ⟨errOk, Safety.accessorResult i (rawDraw v 1)⟩] := by
  have first : ((s.seeded v).respond errOk dataNone).drawnWord = rawDraw v 1 :=
    Safety.drawnWord_of_onStream (Safety.onStream_start rfl rfl rfl)
  exact ⟨_, _, exec_seed v s, exec_accessor h _, by simp [first]⟩

/-- The first NEXT.U32 of the default seed (R110, R250). -/
theorem resultU32_rawDraw_default : resultU32 (rawDraw 5489#32 1) = 0x00000000D091BB5C#64 := by decide +kernel

/-- Settles O16: the command's rule, its word, and the rule's values by evaluation. -/
theorem seedReplacesTheWholeState : Obligations.SeedReplacesTheWholeState := by
  unfold Obligations.SeedReplacesTheWholeState
  have corners : wordAt (initWords 0#32) 1 = 1#32 ∧ wordAt (initWords 0#32) 2 = 0x6C078967#32
      ∧ wordAt (initWords 0xFFFFFFFF#32) 1 = 0x4FE1DA6D#32 := by decide +kernel
  obtain ⟨zero1, zero2, largest1⟩ := corners
  refine ⟨fun v s => ⟨exec_seed v s, encode_seed_and_mask v, argField_encode (.seed v)⟩, wordAt_initWords_zero 0#32,
    zero1, zero2, largest1, by decide, fun s => ?_⟩
  rw [← resultU32_rawDraw_default]
  exact seed_then_accessor 5489#32 rfl s

end Sys2Proof.Machine
end

section
/-! SEED erases the past (R113, R114): behind it two blocks agree in all that their responses depend on and in the ghost
counter, which follows from itself and the inputs (R38). -/

namespace Sys2Proof.Safety

open Sys2Proof.Machine

variable {s t s' t' : State}

theorem exec_draws_congr {i : Instr} (draws : s.draws = t.draws) (hs : exec i s = .next s')
    (ht : exec i t = .next t') : s'.draws = t'.draws := by
  obtain ⟨v, rfl, -⟩ | ⟨ha, -⟩ := exec_cases i s
  · cases hs.symm.trans (exec_seed v s)
    cases ht.symm.trans (exec_seed v t)
    rfl
  · cases hs.symm.trans (exec_accessor ha s)
    cases ht.symm.trans (exec_accessor ha t)
    simp [draws]

theorem runInput_draws_congr {cfg : Config} {x : Input} (draws : s.draws = t.draws)
    (hs : runInput cfg x s = .next s') (ht : runInput cfg x t = .next t') : s'.draws = t'.draws := by
  cases x with
  | command w =>
    cases hd : decodeWith cfg w with
    | illegal why =>
      cases hs.symm.trans (runCommand_illegal hd s)
      cases ht.symm.trans (runCommand_illegal hd t)
      exact draws
    | legal i =>
      exact exec_draws_congr draws ((runCommand_legal hd s).symm.trans hs) ((runCommand_legal hd t).symm.trans ht)
  | reset | resetDuring _ | powerCycle => cases hs; cases ht; rfl
  | partialTransfer _ _ => cases hs

theorem stepWith_draws_congr {cfg : Config} (inbox : s.inbox = t.inbox) (draws : s.draws = t.draws)
    (hs : stepWith cfg s = .next s') (ht : stepWith cfg t = .next t') : s'.draws = t'.draws := by
  cases hin : t.inbox with
  | nil =>
    cases hs.symm.trans (stepWith_idle cfg (inbox.trans hin))
    cases ht.symm.trans (stepWith_idle cfg hin)
    exact draws
  | cons x rest =>
    rw [stepWith_input cfg (inbox.trans hin)] at hs
    rw [stepWith_input cfg hin] at ht
    refine runInput_draws_congr ?_ hs ht
    exact draws

/-- Blocks that agree in all that responses depend on keep their ghost counters equal. -/
theorem run_draws_congr (n : Nat) (agree : AgreeOnInputs s t) (draws : s.draws = t.draws)
    (hs : Host.Core.run Sys2Proof.core n s = .next s') (ht : Host.Core.run Sys2Proof.core n t = .next t') :
    s'.draws = t'.draws := by
  induction n generalizing s t with
  | zero =>
    cases hs
    cases ht
    exact draws
  | succ n ih =>
    obtain ⟨s₁, hs₁, hsrun⟩ := run_succ_next hs
    obtain ⟨t₁, ht₁, first⟩ := stepWith_respondedAlike Config.hardware agree hs₁
    exact ih first.agree (stepWith_draws_congr agree.inbox draws hs₁ ht₁) hsrun ((run_succ n ht₁).symm.trans ht)

/-- The step that takes SEED off the port leaves nothing of the earlier generator. -/
theorem step_encode_seed {v : Word} {rest : List Input} (hin : s.inbox = .command (encode (.seed v)) :: rest) :
    step s = .next ⟨initWords v, 624, 0, rest, s.responses ++ [⟨errOk, dataNone⟩]⟩ :=
  stepWith_command_legal hin (decode_encode (.seed v))

/-- Settles O18: after the first step both blocks hold `Init(seed)` and wait for the same inputs, and then run alike
(`run_respondedAlike`, `run_draws_congr`). -/
theorem seedErasesThePast : Obligations.SeedErasesThePast := by
  unfold Obligations.SeedErasesThePast
  intro v rest s t n s' hs ht hrun
  have first : RespondedAlike s t ⟨initWords v, 624, 0, rest, s.responses ++ [⟨errOk, dataNone⟩]⟩
      ⟨initWords v, 624, 0, rest, t.responses ++ [⟨errOk, dataNone⟩]⟩ :=
    ⟨⟨rfl, rfl, rfl⟩, [⟨errOk, dataNone⟩], rfl, rfl⟩
  rw [run_succ n (step_encode_seed hs)] at hrun
  rw [run_succ n (step_encode_seed ht)]
  obtain ⟨t', htrun, later⟩ := run_respondedAlike n first.agree hrun
  obtain ⟨⟨mt, idx, inbox⟩, new, hsnew, htnew⟩ := first.trans later
  have draws : s'.draws = t'.draws := run_draws_congr n first.agree rfl hrun htrun
  exact ⟨t', new, htrun, ⟨mt, idx, draws⟩, inbox, hsnew, htnew⟩

end Sys2Proof.Safety
end

section
/-! One raw draw (R130, R132, R137): its value and its frame in the two cases of `idx`, the one draw of an accessor, and which
draws of a stream twist. -/

namespace Sys2Proof.Machine

namespace State

variable {s : State}

theorem drawnWord_of_exhausted (h : s.idx = 624) : s.drawnWord = temper (wordAt (twist s.mt) 0) := by
  rw [drawnWord_eq, refill_of_exhausted h]
  rfl

theorem drawnWord_of_remaining (h : s.idx ≠ 624) : s.drawnWord = temper (wordAt s.mt s.idx.val) := by
  rw [drawnWord_eq, refill_of_remaining h]

theorem afterDraw_mt_of_exhausted (h : s.idx = 624) : s.afterDraw.mt = twist s.mt := by
  rw [afterDraw_mt, refill_of_exhausted h]

theorem afterDraw_mt_of_remaining (h : s.idx ≠ 624) : s.afterDraw.mt = s.mt := by
  rw [afterDraw_mt, refill_of_remaining h]

theorem afterDraw_idx_of_exhausted (h : s.idx = 624) : s.afterDraw.idx = 1 :=
  Fin.ext (by rw [afterDraw_idx_val, refill_of_exhausted h]; rfl)

theorem afterDraw_idx_of_remaining (h : s.idx ≠ 624) : s.afterDraw.idx.val = s.idx.val + 1 := by
  rw [afterDraw_idx_val, refill_of_remaining h]

end State

/-- Settles O20: the two cases of `idx`; in both, `idx` is one more than an index below 624. -/
theorem drawTakesTheNextWord : Obligations.DrawTakesTheNextWord := by
  unfold Obligations.DrawTakesTheNextWord
  intro s
  have low : 1 ≤ s.afterDraw.idx.val := Nat.le_add_left 1 s.refill.idx.val
  have high : s.afterDraw.idx.val ≤ 624 := s.refill_idx_lt
  exact ⟨fun h => ⟨State.drawnWord_of_exhausted h, State.afterDraw_mt_of_exhausted h, State.afterDraw_idx_of_exhausted h⟩,
    fun h => ⟨State.drawnWord_of_remaining h, State.afterDraw_mt_of_remaining h, State.afterDraw_idx_of_remaining h⟩,
    s.afterDraw_draws, s.afterDraw_inbox, s.afterDraw_responses, low, high⟩

/-- Settles O25: an accessor's one response is the only change beside its draw (`exec_accessor`). -/
theorem oneDrawPerAccessor : Obligations.OneDrawPerAccessor := by
  unfold Obligations.OneDrawPerAccessor
  intro i s accessor
  rw [exec_accessor accessor, State.respond, State.afterDraw_responses]
  rfl

end Sys2Proof.Machine

namespace Sys2Proof.Safety

open Sys2Proof.Machine

/-- On a stream the words are used up when the number of draws is a multiple of 624 (R132). -/
theorem OnStream.exhausted_iff {v : Word} {s : State} (h : OnStream v s) : s.idx = 624 ↔ (s.draws + 1) % 624 = 1 := by
  obtain ⟨-, place⟩ := h
  have bound := s.idx.isLt
  rw [Fin.ext_iff]
  show s.idx.val = 624 ↔ _
  unfold twistsAfter at place
  omega

/-- Settles O27: the draws that find no word left are those that twist, whatever their numbers. -/
theorem twistHappensEvery624Draws : Obligations.TwistHappensEvery624Draws := by
  unfold Obligations.TwistHappensEvery624Draws
  intro v s onStream
  refine ⟨onStream.exhausted_iff, ?_⟩
  split
  next h => exact State.afterDraw_mt_of_exhausted (onStream.exhausted_iff.mpr h)
  next h => exact State.afterDraw_mt_of_remaining (mt onStream.exhausted_iff.mp h)

end Sys2Proof.Safety
end

section
/-! The in-place twist (R133, R134): the transform of one word, and whether a word that a step reads is old or already new. -/

namespace Sys2Proof.Machine

/-- Settles O22: the two values of bit 0. -/
theorem twistTransformOfOneWord : Obligations.TwistTransformOfOneWord := by
  unfold Obligations.TwistTransformOfOneWord
  intro x
  have bit : x.getLsbD 0 = x[0] := rfl
  exact ⟨fun h => if_pos (bit.trans h), fun h => if_neg (by rw [bit, h]; decide)⟩

/-- The words before step `k` are those of the finished twist (R134). -/
theorem wordAt_twistUpTo_of_lt (mt : StateWords) {k j : Nat} (hk : k ≤ 624) (h : j < k) :
    wordAt (twistUpTo k mt) j = wordAt (twist mt) j := by
  rw [wordAt_twistUpTo_final mt hk h, wordAt_twist mt (by omega)]

/-- Step `i` reads the word `i + 397` old up to `i` = 226, else new, as the word `i - 227` (R134). -/
theorem wordAt_twistUpTo_add_397 (mt : StateWords) {i : Nat} (h : i < 624) :
    wordAt (twistUpTo i mt) (i + 397) = if i ≤ 226 then wordAt mt (i + 397) else wordAt (twist mt) (i - 227) := by
  split
  · exact wordAt_twistUpTo_of_ge mt (by omega) (by omega)
  · rw [wordAt_congr _ (show (i + 397) % 624 = (i - 227) % 624 by omega), wordAt_twistUpTo_of_lt mt (by omega) (by omega)]

/-- Step `i` reads the word `i + 1` old, but for the last step, which reads the new word 0 (R134). -/
theorem wordAt_twistUpTo_add_one (mt : StateWords) {i : Nat} (h : i < 624) :
    wordAt (twistUpTo i mt) (i + 1) = if i ≤ 622 then wordAt mt (i + 1) else wordAt (twist mt) 0 := by
  split
  · exact wordAt_twistUpTo_of_ge mt (by omega) (by omega)
  · rw [wordAt_congr _ (show (i + 1) % 624 = 0 % 624 by omega), wordAt_twistUpTo_of_lt mt (by omega) (by omega)]

/-- Settles O21: the word its own step writes, with the three words that step reads. -/
theorem twistReadsOldAndNewWords : Obligations.TwistReadsOldAndNewWords := by
  unfold Obligations.TwistReadsOldAndNewWords
  intro mt i hi
  have h : i < 624 := by omega
  rw [wordAt_twist mt h, twistUpTo, wordAt_twistStep_self _ h, wordAt_twistUpTo_add_397 mt h,
    wordAt_twistUpTo_of_ge mt h (Nat.le_refl i), wordAt_twistUpTo_add_one mt h]
  rfl

end Sys2Proof.Machine
end

section
/-! The closed form of the raw stream (R139): the words after some twists, the recurrence across a twist, and the draws after a
seeding. -/

namespace Sys2Proof.Safety

open Sys2Proof.Machine

theorem twistedWords_eq_iterate (v : Word) (t : Nat) : twistedWords v t = twist^[t] (initWords v) := by
  induction t with
  | zero => rfl
  | succ t ih => rw [twistedWords, ih, Function.iterate_succ_apply']

/-- A word of the block behind `t` twists (R139). -/
theorem streamWord_eq_wordAt (v : Word) {n t i : Nat} (hi : i < 624) (hn : n = 624 * t + i) :
    streamWord v n = wordAt (twistedWords v t) i :=
  hn ▸ streamWord_block v t hi

/-- A word of the block behind one twist more (R139). -/
theorem streamWord_eq_wordAt_twist (v : Word) {n t i : Nat} (hi : i < 624) (hn : n = 624 * (t + 1) + i) :
    streamWord v n = wordAt (twist (twistedWords v t)) i :=
  streamWord_eq_wordAt v hi hn

/-- The recurrence of R139: the words that the twist reads old stand 624 places before the one it writes, in the same block of
the stream, and those it reads new in the next. -/
theorem streamWord_add_624 (v : Word) (k : Nat) :
    streamWord v (k + 624)
      = streamWord v (k + 397)
        ^^^ twistA ((streamWord v k &&& 0x80000000#32) ||| (streamWord v (k + 1) &&& 0x7FFFFFFF#32)) := by
  obtain ⟨t, i, hi, rfl⟩ : ∃ t i, i < 624 ∧ k = 624 * t + i := ⟨k / 624, k % 624, by omega, by omega⟩
  have middle : streamWord v (624 * t + i + 397)
      = if i ≤ 226 then wordAt (twistedWords v t) (i + 397) else wordAt (twist (twistedWords v t)) (i - 227) := by
    split
    · exact streamWord_eq_wordAt v (by omega) (by omega)
    · exact streamWord_eq_wordAt_twist v (by omega) (by omega)
  have lower : streamWord v (624 * t + i + 1)
      = if i ≤ 622 then wordAt (twistedWords v t) (i + 1) else wordAt (twist (twistedWords v t)) 0 := by
    split
    · exact streamWord_eq_wordAt v (by omega) (by omega)
    · exact streamWord_eq_wordAt_twist v (by omega) (by omega)
  rw [middle, lower, streamWord_block v t hi, streamWord_eq_wordAt_twist v (t := t) hi (by omega)]
  exact twistReadsOldAndNewWords _ i (by omega)

theorem standsAt_iterate_draw (v : Word) (s : State) (n : Nat) :
    StandsAt ⟨v, n⟩ ((fun u => u.draw.2)^[n] (s.seeded v)) := by
  induction n with
  | zero => exact standsAt_seeded v s
  | succ n ih =>
    rw [Function.iterate_succ_apply']
    exact ih.afterDraw

/-- Settles O24: block 0 is `Init(seed)`, the recurrence is the twist's, and the draws walk along the stream. -/
theorem closedFormOfTheRawStream : Obligations.ClosedFormOfTheRawStream := by
  unfold Obligations.ClosedFormOfTheRawStream
  intro v
  refine ⟨fun i hi => ?_, streamWord_add_624 v, fun t i hi => ?_, fun s k hk => ?_⟩
  · exact streamWord_eq_wordAt v (t := 0) hi (by omega)
  · rw [streamWord_block v t hi, twistedWords_eq_iterate]
  · obtain ⟨n, rfl⟩ := Nat.exists_eq_add_of_le' hk
    exact (standsAt_iterate_draw v s n).drawnWord

end Sys2Proof.Safety
end

section
/-! The tempering (R136): each of its four lines changes a bit by earlier bits alone, in the order the line's shift gives, and so
can be undone bit by bit. -/

namespace Sys2Proof.Machine

/-- XOR with a word each of whose bits follows from the bits of lower rank can be undone, lowest rank first. -/
theorem injective_xor_of_rank {g : Word → Word} (rank : Nat → Nat)
    (h : ∀ y z i, i < 32 → (∀ j, rank j < rank i → y.getLsbD j = z.getLsbD j) → (g y).getLsbD i = (g z).getLsbD i) :
    Function.Injective fun y => y ^^^ g y := by
  intro y z hyz
  apply BitVec.eq_of_getLsbD_eq
  suffices bits : ∀ i, y.getLsbD i = z.getLsbD i from fun i _ => bits i
  intro i
  induction i using (measure rank).wf.induction with
  | h i ih =>
    rcases Nat.lt_or_ge i 32 with hi | hi
    · have same := congrArg (·.getLsbD i) hyz
      simpa [h y z i hi ih] using same
    · rw [BitVec.getLsbD_of_ge _ _ hi, BitVec.getLsbD_of_ge _ _ hi]

/-- A line of the tempering with a right shift (R136). -/
def temperRight (k : Nat) (mask y : Word) : Word := y ^^^ ((y >>> k) &&& mask)

/-- A line of the tempering with a left shift (R136). -/
def temperLeft (k : Nat) (mask y : Word) : Word := y ^^^ ((y <<< k) &&& mask)

/-- A right shift brings each bit from a higher one. -/
theorem temperRight_injective {k : Nat} (hk : 0 < k) (mask : Word) : Function.Injective (temperRight k mask) := by
  refine injective_xor_of_rank (32 - ·) fun y z i hi earlier => ?_
  simp [earlier (k + i) (by omega)]

/-- A left shift brings each bit from a lower one. -/
theorem temperLeft_injective {k : Nat} (hk : 0 < k) (mask : Word) : Function.Injective (temperLeft k mask) := by
  refine injective_xor_of_rank id fun y z i hi earlier => ?_
  rcases Nat.lt_or_ge i k with h | h
  · simp [h]
  · simp [earlier (i - k) (show i - k < i by omega)]

theorem temper_eq (y : Word) :
    temper y = temperRight 18 (BitVec.allOnes 32) (temperLeft 15 Config.temperMaskC
      (temperLeft 7 Config.temperMaskB (temperRight 11 Config.temperMaskD y))) := by
  rw [temperRight, BitVec.and_allOnes]
  rfl

theorem temper_bijective : Function.Bijective temper := by
  refine Finite.injective_iff_bijective.mp ?_
  rw [funext temper_eq]
  exact (temperRight_injective (by decide) _).comp <| (temperLeft_injective (by decide) _).comp <|
    (temperLeft_injective (by decide) _).comp (temperRight_injective (by decide) _)

/-- Settles O23: its lines are the rule's, each can be undone, and the examples are evaluated. -/
theorem temperingIsABijection : Obligations.TemperingIsABijection := by
  unfold Obligations.TemperingIsABijection
  refine ⟨?_, temper_bijective, by decide⟩
  rintro y _ _ _ rfl rfl rfl
  rfl

end Sys2Proof.Machine
end

section
/-! NEXT.U32 (R138) and the conformance vector (R140). -/

namespace Sys2Proof.Machine

open Sys2Proof.Safety

theorem drawnWord_seeded (v : Word) (s : State) : (s.seeded v).drawnWord = rawDraw v 1 :=
  (standsAt_seeded v s).drawnWord

/-- Settles O32: the first draw of the stream, whose zero extension an earlier lemma gives. -/
theorem firstDrawOfTheDefaultSeed : Obligations.FirstDrawOfTheDefaultSeed := by
  unfold Obligations.FirstDrawOfTheDefaultSeed
  intro s
  have value : rawDraw 5489#32 1 = 3499211612#32 := by
    simpa [resultU32, dataOfWord] using congrArg (BitVec.setWidth 32) resultU32_rawDraw_default
  exact (drawnWord_seeded 5489#32 s).trans value

/-- The state of a block that has word `w` everywhere and all of them left to draw. -/
def uniformState (w : Word) : State := ⟨Vector.replicate 624 w, 0, 0, [], []⟩

theorem drawnWord_uniformState (w : Word) : (uniformState w).drawnWord = temper w := by
  have remaining : (uniformState w).idx ≠ 624 := show (0 : Fin 625) ≠ 624 by decide
  rw [State.drawnWord_of_remaining remaining, wordAt]
  exact congrArg temper (Vector.getElem_replicate _)

theorem extractLsb'_setWidth_upper (y : Word) : (y.setWidth 64).extractLsb' 32 32 = 0#32 := by
  apply BitVec.eq_of_getLsbD_eq
  intro i hi
  simp

/-- Settles O33: the accessor's rule, the tempering's values, the first draw's twist, and the example. -/
theorem nextU32ReturnsTheDraw : Obligations.NextU32ReturnsTheDraw := by
  unfold Obligations.NextU32ReturnsTheDraw
  refine ⟨fun s => ⟨oneDrawPerAccessor .nextU32 s rfl, extractLsb'_setWidth_upper _⟩, fun y => ?_,
    fun v s => State.afterDraw_mt_of_exhausted rfl, by decide, fun s => ⟨_, exec_accessor rfl _, ?_⟩⟩
  · obtain ⟨w, rfl⟩ := temper_bijective.surjective y
    exact ⟨uniformState w, drawnWord_uniformState w⟩
  · rw [State.respond_responses, State.afterDraw_responses, drawnWord_seeded, ← resultU32_rawDraw_default]
    rfl

end Sys2Proof.Machine
end

section
/-! NEXT.I31 (R160, R161, R162): its result as half the draw, and as NEXT.U32's result shifted. -/

namespace Sys2Proof.Machine

open Sys2Proof.Safety

theorem toNat_shiftRight_one (y : Word) : (y >>> 1).toNat = y.toNat / 2 := by
  rw [BitVec.toNat_ushiftRight, Nat.shiftRight_eq_div_pow, Nat.pow_one]

theorem toNat_resultI31 (y : Word) : (resultI31 y).toNat = y.toNat / 2 := by
  rw [resultI31, dataOfWord, BitVec.toNat_setWidth_of_le (by decide), toNat_shiftRight_one]

/-- To extend the draw and then shift it loses nothing, since the extension's upper half is 0 (R162). -/
theorem resultI31_eq_resultU32_shiftRight (y : Word) : resultI31 y = resultU32 y >>> 1 := by
  apply BitVec.eq_of_toNat_eq
  rw [toNat_resultI31, resultU32, dataOfWord, BitVec.toNat_ushiftRight, BitVec.toNat_setWidth_of_le (by decide),
    Nat.shiftRight_eq_div_pow, Nat.pow_one]

/-- Settles O34: the accessor's rule, the value of the shifted draw, whose sign bit is clear, and the example by way of
NEXT.U32's. -/
theorem nextI31HalvesTheDraw : Obligations.NextI31HalvesTheDraw := by
  unfold Obligations.NextI31HalvesTheDraw
  refine ⟨fun s => ⟨s.draw.1 >>> 1, oneDrawPerAccessor .nextI31 s rfl, rfl, toNat_shiftRight_one _, ?_, ?_⟩,
    by decide, by decide, by decide, by decide, by decide, by decide, fun s => ⟨_, exec_accessor rfl _, ?_⟩⟩
  · obtain ⟨signClear, -, -⟩ := resultI31_extends s.draw.1
    rw [BitVec.toInt_eq_toNat_of_msb signClear, toNat_shiftRight_one]
  · obtain ⟨-, zeroExtended, signExtended⟩ := resultI31_extends s.draw.1
    exact zeroExtended.symm.trans signExtended
  · have value : resultI31 (rawDraw 5489#32 1) = 0x000000006848DDAE#64 := by
      rw [resultI31_eq_resultU32_shiftRight, resultU32_rawDraw_default]
      decide
    rw [State.respond_responses, State.afterDraw_responses, drawnWord_seeded, ← value]
    rfl

/-- Settles O35: the result is the draw divided by two, with remainder 0 or 1. -/
theorem nextI31RangeIsTwoToOne : Obligations.NextI31RangeIsTwoToOne := by
  unfold Obligations.NextI31RangeIsTwoToOne
  refine ⟨fun y => ?_, fun r hr y => ?_⟩
  · have bound := y.isLt
    rw [toNat_resultI31]
    omega
  · have even : 2 * r % 2 ^ 32 = 2 * r := Nat.mod_eq_of_lt (by omega)
    have odd : (2 * r + 1) % 2 ^ 32 = 2 * r + 1 := Nat.mod_eq_of_lt (by omega)
    rw [toNat_resultI31, ← BitVec.toNat_inj, ← BitVec.toNat_inj, BitVec.toNat_ofNat, BitVec.toNat_ofNat, even, odd]
    omega

/-- From one state, the DATA of NEXT.I31's response is NEXT.U32's shifted right by one, as 64-bit words (R162). -/
theorem nextI31_data_eq_nextU32_data_shiftRight (s : State) :
    ∃ (t u : State) (a b : Data), exec .nextU32 s = .next t ∧ exec .nextI31 s = .next u
      ∧ t.responses = s.responses ++ [⟨0#1, a⟩] ∧ u.responses = s.responses ++ [⟨0#1, b⟩]
      ∧ b = a >>> 1 ∧ SameGenerator t u :=
  ⟨_, _, resultU32 s.drawnWord, resultI31 s.drawnWord, oneDrawPerAccessor .nextU32 s rfl,
    oneDrawPerAccessor .nextI31 s rfl, rfl, rfl, resultI31_eq_resultU32_shiftRight s.drawnWord, rfl, rfl, rfl⟩

/-- Settles O36. Lean reads the statement's `a` and `b` as numbers whose casts to 64 bits are the two DATA, so that the words'
own values serve; they are related by the lemma about the words, which leaves no bit open. -/
theorem nextI31IsNextU32Halved : Obligations.NextI31IsNextU32Halved := by
  unfold Obligations.NextI31IsNextU32Halved
  intro s
  obtain ⟨t, u, a, b, ht, hu, hta, hub, hba, same⟩ := nextI31_data_eq_nextU32_data_shiftRight s
  have cast (d : Data) : (d.toNat : Data) = d := by
    rw [BitVec.natCast_eq_ofNat, BitVec.ofNat_toNat, BitVec.setWidth_eq]
  refine ⟨t, u, a.toNat, b.toNat, ht, hu, ?_, ?_, ?_, same⟩
  · rw [cast, hta]
  · rw [cast, hub]
  · rw [hba, BitVec.toNat_ushiftRight]

end Sys2Proof.Machine
end

section
/-! Rounding as a bound on the error and as exactness: at most half a unit in the last place is lost, and nothing where the
significand has room (R14). -/

namespace Sys2Proof.Machine

namespace Exact

@[simp] theorem toRat_dyadic (n : Nat) (e : Int) : (Exact.mk n 1 e).toRat = n * 2 ^ e := by simp [toRat]

/-- No other exponent has powers of two that enclose the value. -/
theorem floorLog2_eq {x : Exact} (hn : x.num ≠ 0) (hd : x.den ≠ 0) {e : Int} (low : (2 : ℚ) ^ e ≤ x.toRat)
    (high : x.toRat < 2 ^ (e + 1)) : x.floorLog2 = e := by
  obtain ⟨low', high'⟩ := floorLog2_spec hn hd
  have below : x.floorLog2 < e + 1 := (zpow_lt_zpow_iff_right₀ (by norm_num)).mp (low'.trans_lt high)
  have above : e < x.floorLog2 + 1 := (zpow_lt_zpow_iff_right₀ (by norm_num)).mp (low.trans_lt high')
  omega

end Exact

namespace Format

variable (f : Format)

/-- Rounding moves a value by at most half its unit in the last place. -/
theorem abs_round_sub_le {x : Exact} (hn : x.num ≠ 0) (hd : x.den ≠ 0) :
    |(f.round x).real.toRat - x.toRat| ≤ 1 / 2 * 2 ^ f.ulpExponent x := by
  rw [Datum.real_toRat, f.round_of_num_ne_zero hn, abs_mul_zpow_sub_toRat]
  exact mul_le_mul_of_nonneg_right (abs_roundQuotient_sub_le _ (Exact.scaled_den_pos hd _)) (by positivity)

variable {n : Nat} {e : Int}

/-- A dyadic value whose integer fits the significand is rounded to itself. -/
theorem toRat_round_of_fits (hn : n < 2 ^ f.prec) (he : f.emin ≤ e) : (f.round ⟨n, 1, e⟩).real.toRat = n * 2 ^ e := by
  rcases Nat.eq_zero_or_pos n with rfl | h
  · simp [round_zero]
  have fits : Nat.log2 n < f.prec := (Nat.log2_lt h.ne').mpr hn
  rw [f.round_exact h (by omega) fits, Datum.real_toRat]
  push_cast
  rw [mul_assoc, ← zpow_natCast, ← zpow_add₀ (by norm_num)]
  congr 2
  omega

/-- Where a first rounding is exact, scaling by a power of two and rounding again is one rounding of the scaled value. -/
theorem round_round_mul_two_pow (h : 0 < n) (hn : n < 2 ^ f.prec) (he : f.emin ≤ e) (j : Nat) (k : Int) :
    f.round ((f.round ⟨n, 1, e⟩).real.mul ⟨2 ^ j, 1, k⟩) = f.round ⟨n, 1, e + k + j⟩ := by
  have fits : Nat.log2 n < f.prec := (Nat.log2_lt h.ne').mpr hn
  rw [f.round_exact h (by omega) fits, Datum.real_mk, mul_dyadic, Nat.mul_assoc, ← Nat.pow_add,
    ← f.round_shift n (f.prec - 1 - Nat.log2 n + j)]
  congr 2
  omega

end Format

end Sys2Proof.Machine
end

section
/-! Every result is +0 or a positive normal number (R175). -/

namespace Sys2Proof.Machine

open Sys2Proof.Safety

namespace Format

variable (f : Format)

/-- The encoding of a normal datum is that of a positive normal number, and fits its width. -/
theorem plainEncoding_encode {d : Datum} (hs : 0 < d.sig) (hp : d.sig ≤ 2 ^ f.prec) (h1 : 1 ≤ f.prec)
    (hlo : f.emin ≤ Nat.log2 d.sig + d.exp) (hhi : Nat.log2 d.sig + d.exp ≤ f.emax)
    (hb1 : 1 ≤ f.emin + f.bias) (hb2 : f.emax + f.bias + 1 < 2 ^ f.expBits) :
    PlainEncoding f (f.encode d) ∧ f.encode d < 2 ^ f.expBits * 2 ^ (f.prec - 1) := by
  obtain ⟨-, sign, exponent, width⟩ := f.value_encode hs hp h1 hlo hhi hb1 hb2
  have below : (Nat.log2 d.sig + d.exp + f.bias).toNat + 1 < 2 ^ f.expBits := by
    zify
    omega
  exact ⟨⟨sign, by omega, by omega⟩, width⟩

/-- A dyadic value whose unit is in the normal range, and which is not so large that rounding could reach the range's end, has
the encoding of a positive normal number, or that of 0. -/
theorem plainEncoding_encode_round (h1 : 1 ≤ f.prec) (hb1 : 1 ≤ f.emin + f.bias)
    (hb2 : f.emax + f.bias + 1 < 2 ^ f.expBits) {n k : Nat} {e : Int} (hn : n < 2 ^ k) (hlo : f.emin ≤ e)
    (hhi : k + e ≤ f.emax) :
    PlainEncoding f (f.encode (f.round ⟨n, 1, e⟩)) ∧ f.encode (f.round ⟨n, 1, e⟩) < 2 ^ f.expBits * 2 ^ (f.prec - 1) := by
  rcases Nat.eq_zero_or_pos n with rfl | h
  · have width : 1 < 2 ^ f.expBits := by
      zify
      omega
    have zero : f.encode (f.round ⟨0, 1, e⟩) = 0 := by simp [round_zero, encode]
    rw [zero]
    refine ⟨⟨by simp [signOf], ?_, fun _ => rfl⟩, by positivity⟩
    rw [exponentOf, Nat.zero_div, Nat.zero_mod]
    omega
  · have hlog : Nat.log2 n < k := (Nat.log2_lt h.ne').mpr hn
    obtain ⟨pos, fits, low, high⟩ := f.round_normal (e := e) h1 h (by omega) (by omega)
    exact f.plainEncoding_encode pos fits h1 low high hb1 hb2

end Format

theorem plainEncoding_rn64 {n k : Nat} {e : Int} (hn : n < 2 ^ k) (hlo : -1022 ≤ e) (hhi : k + e ≤ 1023) :
    PlainEncoding binary64 (f64bits (rn64 ⟨n, 1, e⟩)).toNat := by
  obtain ⟨plain, width⟩ := binary64.plainEncoding_encode_round (by decide) (by decide) (by decide) hn hlo hhi
  rw [rn64, toNat_f64bits (width.trans_le (by decide))]
  exact plain

theorem plainEncoding_rn32 {n k : Nat} {e : Int} (hn : n < 2 ^ k) (hlo : -126 ≤ e) (hhi : k + e ≤ 127) :
    PlainEncoding binary32 (f32bits (rn32 ⟨n, 1, e⟩)).toNat := by
  obtain ⟨plain, width⟩ := binary32.plainEncoding_encode_round (by decide) (by decide) (by decide) hn hlo hhi
  rw [rn32, toNat_f32bits (width.trans_le (by decide))]
  exact plain

/-! ### The double-precision results as one rounding each -/

/-- Powers of two may stand in the integer or in the exponent. -/
theorem rn64_mul_two_pow (n k : Nat) {e e' : Int} (h : e + k = e') : rn64 ⟨n * 2 ^ k, 1, e⟩ = rn64 ⟨n, 1, e'⟩ := by
  rw [← eq_sub_iff_add_eq] at h
  rw [h]
  exact binary64.round_shift n k e'

/-- NEXT.DC rounds the exact product once (R170). -/
theorem doubleClosed_eq (y : Word) : doubleClosed y = rn64 ⟨scaledProduct y, 1, -64⟩ := by
  have constant : 2 ^ 52 + 2 ^ 20 = (2 ^ 32 + 1) * 2 ^ 20 := by decide
  rw [doubleClosed, scaleDc_eq, realOfWord_eq, Datum.real_mk, mul_dyadic, constant, ← Nat.mul_assoc]
  exact rn64_mul_two_pow (scaledProduct y) 20 (by decide)

/-- NEXT.DLC rounds the draw times 2^-32 (R173). -/
theorem doubleLeftClosed_eq (y : Word) : doubleLeftClosed y = rn64 ⟨y.toNat, 1, -32⟩ := by
  rw [doubleLeftClosed, scaleDlc_eq, realOfWord_eq, Datum.real_mk, mul_dyadic]
  exact rn64_mul_two_pow y.toNat 52 (by decide)

/-- NEXT.DO rounds (2 u + 1) times 2^-33, since the sum with 0.5 is exact (R174). -/
theorem doubleOpen_eq (y : Word) : doubleOpen y = rn64 ⟨y.toNat * 2 + 1, 1, -33⟩ := by
  have sum : (realOfWord y).add Exact.half = ⟨y.toNat * 2 + 1, 1, -1⟩ := add_half y.toNat 0
  have fits : y.toNat * 2 + 1 < 2 ^ 53 := by have := y.isLt; omega
  rw [doubleOpen, sum, scaleDlc_eq]
  exact binary64.round_round_mul_two_pow (by omega) fits (by decide) 52 (-84)

theorem scaledProduct_lt (y : Word) : scaledProduct y < 2 ^ 64 := by
  have := y.isLt
  rw [scaledProduct]
  omega

theorem plainEncoding_resultDc (y : Word) : PlainEncoding binary64 (resultDc y).toNat := by
  rw [resultDc, dataOfDouble, doubleClosed_eq]
  exact plainEncoding_rn64 (scaledProduct_lt y) (by decide) (by decide)

theorem plainEncoding_resultDlc (y : Word) : PlainEncoding binary64 (resultDlc y).toNat := by
  rw [resultDlc, dataOfDouble, doubleLeftClosed_eq]
  exact plainEncoding_rn64 y.isLt (by decide) (by decide)

theorem twice_add_one_lt (y : Word) : y.toNat * 2 + 1 < 2 ^ 33 := by
  have := y.isLt
  omega

theorem plainEncoding_resultDo (y : Word) : PlainEncoding binary64 (resultDo y).toNat := by
  rw [resultDo, dataOfDouble, doubleOpen_eq]
  exact plainEncoding_rn64 (twice_add_one_lt y) (by decide) (by decide)

/-! ### The single-precision results -/

theorem toNat_dataOfSingle (d : Datum) : (dataOfSingle d).toNat = (f32bits d).toNat :=
  BitVec.toNat_setWidth_of_le (by decide)

/-- A datum of binary32 times 2^-32 has a plain result where its exponent is that of a draw, or of a draw with 0.5 added. -/
theorem plainEncoding_scaledFlc {d : Datum} (fits : d.sig ≤ 2 ^ 24) (low : -46 ≤ d.exp) (high : d.exp ≤ 10) :
    PlainEncoding binary32 (dataOfSingle (rn32 (d.real.mul scaleFlc.real))).toNat := by
  obtain ⟨m, k⟩ := d
  dsimp only at fits low high
  rw [toNat_dataOfSingle, scaleFlc_eq, Datum.real_mk, Datum.real_mk, mul_dyadic]
  exact plainEncoding_rn32 (mul_lt_two_pow_add fits (by decide : _ < 2 ^ 24)) (by omega) (by omega)

theorem plainEncoding_resultFlc (y : Word) : PlainEncoding binary32 (resultFlc y).toNat := by
  obtain ⟨fits, low, high⟩ := singleOfWord_bounds y
  exact plainEncoding_scaledFlc fits (by omega) (by omega)

theorem resultFc_eq_resultFlc (y : Word) : resultFc y = resultFlc y := congrArg dataOfSingle (singleClosed_eq y)

theorem plainEncoding_resultFo (y : Word) : PlainEncoding binary32 (resultFo y).toNat := by
  obtain ⟨n, e, sum, pos, bound, hlo, hhi⟩ := singleOfWord_add_half y
  have exponent : e - 23 ≤ (rn32 ⟨n, 1, e⟩).exp ∧ (rn32 ⟨n, 1, e⟩).exp ≤ 34 + e - 24 :=
    binary32.round_exp_bounds pos bound (show -126 ≤ e by omega)
  rw [resultFo, singleOpen, sum]
  exact plainEncoding_scaledFlc (binary32.round_sig_le one_ne_zero) (by omega) (by omega)

/-- Settles O49: each result is the rounding of a dyadic value in the normal range, or of 0. -/
theorem noSpecialFloatingPointResult : Obligations.NoSpecialFloatingPointResult := by
  unfold Obligations.NoSpecialFloatingPointResult
  exact fun y => ⟨plainEncoding_resultDc y, plainEncoding_resultDlc y, plainEncoding_resultDo y,
    resultFc_eq_resultFlc y ▸ plainEncoding_resultFlc y, plainEncoding_resultFlc y, plainEncoding_resultFo y⟩

end Sys2Proof.Machine
end

section
/-! NEXT.DLC (R173) and NEXT.DO (R174): both are exact. -/

namespace Sys2Proof.Machine

open Sys2Proof.Safety

/-- The first accessor behind a seeding with 5489 responds from the draw 0xD091BB5C (R140). -/
theorem exec_accessor_default {i : Instr} (h : i.isAccessor = true) (s : State) :
    ∃ t, exec i (s.seeded 5489#32) = .next t
      ∧ t.responses = s.responses ++ [⟨0#1, accessorResult i 0xD091BB5C#32⟩] := by
  refine ⟨_, exec_accessor h _, ?_⟩
  have first : (s.seeded 5489#32).drawnWord = 0xD091BB5C#32 := firstDrawOfTheDefaultSeed s
  rw [State.respond_responses, State.afterDraw_responses, first]
  rfl

/-- The sign bit of a plain binary64 encoding is clear. -/
theorem msb_of_plainEncoding {d : Data} (h : PlainEncoding binary64 d.toNat) : d.msb = false := by
  obtain ⟨sign, -, -⟩ := h
  have sign : d.toNat / 2 ^ 63 % 2 = 0 := sign
  have width := d.isLt
  rw [BitVec.msb_eq_decide, decide_eq_false_iff_not]
  omega

/-- An integer of at most 53 bits times `2 ^ e` is exact in binary64. -/
theorem value64_rn64_of_fits {n : Nat} {e : Int} (hn : n < 2 ^ 53) (hlo : -1022 ≤ e) (hhi : e ≤ 970) :
    value64 (f64bits (rn64 ⟨n, 1, e⟩)) = some ((n : ℚ) * 2 ^ e) :=
  (value64_rn64 hn hlo (by omega)).trans (congrArg some (binary64.toRat_round_of_fits hn hlo))

/-- NEXT.DLC's result is the draw times 2^-32 (R173). -/
theorem value64_resultDlc (y : Word) : value64 (resultDlc y) = some ((y.toNat : ℚ) / 2 ^ 32) := by
  rw [resultDlc, dataOfDouble, doubleLeftClosed_eq, value64_rn64_of_fits (y.isLt.trans (by decide)) (by decide) (by decide)]
  rfl

/-- NEXT.DO's result is (2 u + 1) times 2^-33 (R174). -/
theorem value64_resultDo (y : Word) : value64 (resultDo y) = some ((2 * (y.toNat : ℚ) + 1) / 2 ^ 33) := by
  rw [resultDo, dataOfDouble, doubleOpen_eq,
    value64_rn64_of_fits ((twice_add_one_lt y).trans (by decide)) (by decide) (by decide), Nat.cast_succ, Nat.cast_mul,
    Nat.cast_ofNat, mul_comm (y.toNat : ℚ)]
  rfl

theorem toNat_add_one_le (y : Word) : (y.toNat : ℚ) + 1 ≤ 2 ^ 32 := by exact_mod_cast y.isLt

/-- Settles O41: the value is exact (`value64_resultDlc`), and below 1 as the draw is below 2^32. -/
theorem nextDlcIsExact : Obligations.NextDlcIsExact := by
  unfold Obligations.NextDlcIsExact
  have corners : f64bits scaleDlc = 0x3DF0000000000000#64 ∧ resultDlc 0#32 = 0x0000000000000000#64
      ∧ resultDlc 0xFFFFFFFF#32 = 0x3FEFFFFFFFE00000#64 ∧ resultDlc 0x80000000#32 = 0x3FE0000000000000#64
      ∧ resultDlc 0xD091BB5C#32 = 0x3FEA12376B800000#64 := by decide +kernel
  obtain ⟨constant, zero, largest, half, firstDraw⟩ := corners
  refine ⟨fun s => ⟨_, _, oneDrawPerAccessor .nextDlc s rfl, value64_resultDlc _, rfl, by positivity, ?_,
    msb_of_plainEncoding (plainEncoding_resultDlc _)⟩, by decide, by decide, constant, zero, largest, half, fun s => ?_⟩
  · rw [div_lt_one (by norm_num)]
    linarith [toNat_add_one_le s.draw.1]
  · rw [← firstDraw]
    exact exec_accessor_default (i := .nextDlc) rfl s

/-- Settles O42: the value is exact (`value64_resultDo`), and below 1 as the draw is below 2^32. -/
theorem nextDoIsExact : Obligations.NextDoIsExact := by
  unfold Obligations.NextDoIsExact
  have corners : resultDo 0#32 = 0x3DE0000000000000#64 ∧ resultDo 0xFFFFFFFF#32 = 0x3FEFFFFFFFF00000#64
      ∧ resultDo 0xD091BB5C#32 = 0x3FEA12376B900000#64 := by decide +kernel
  obtain ⟨zero, largest, firstDraw⟩ := corners
  refine ⟨fun s => ⟨_, _, oneDrawPerAccessor .nextDo s rfl, value64_resultDo _, rfl, by positivity, ?_,
    msb_of_plainEncoding (plainEncoding_resultDo _)⟩, by decide, by decide, zero, largest, fun s => ?_⟩
  · rw [div_lt_one (by norm_num)]
    linarith [toNat_add_one_le s.draw.1]
  · rw [← firstDraw]
    exact exec_accessor_default (i := .nextDo) rfl s

end Sys2Proof.Machine
end

section
/-! NEXT.DC (R170, R171, R172 items 1 and 2): its constant, the one rounding, and the results in the order of the draws. -/

namespace Sys2Proof.Machine

open Sys2Proof.Safety

/-- Settles O37: the constant as data (`scaleDc_eq`) has the rule's value and bits. -/
theorem doubleClosedScaleIsTheNearestInverse : Obligations.DoubleClosedScaleIsTheNearestInverse := by
  unfold Obligations.DoubleClosedScaleIsTheNearestInverse
  refine ⟨rfl, ?_, by rw [scaleDc_eq]; decide⟩
  rw [scaleDc_eq, Datum.real_toRat]
  norm_num

/-- Settles O38: the product is rounded once (`doubleClosed_eq`), and so to a plain encoding. -/
theorem nextDcRoundsTheProductOnce : Obligations.NextDcRoundsTheProductOnce := by
  unfold Obligations.NextDcRoundsTheProductOnce
  have corners : resultDc 0#32 = 0x0000000000000000#64 ∧ resultDc 1#32 = 0x3DF0000000100000#64
      ∧ resultDc 0xFFFFFFFF#32 = 0x3FF0000000000000#64 ∧ resultDc 0xFFFFFFFE#32 = 0x3FEFFFFFFFE00000#64
      ∧ resultDc 0x80000400#32 = 0x3FE0000080100000#64 ∧ resultDc 0xD091BB5C#32 = 0x3FEA12376B9A1237#64 := by
    decide +kernel
  obtain ⟨zero, one, largest, next, tie, firstDraw⟩ := corners
  refine ⟨fun s => ?_, fun y => ⟨rfl, plainEncoding_resultDc y⟩, by decide, zero, one, largest, next, tie, fun s => ?_⟩
  · have result : resultDc s.draw.1 = f64bits (rn64 ⟨scaledProduct s.draw.1, 1, -64⟩) :=
      congrArg f64bits (doubleClosed_eq _)
    exact result ▸ oneDrawPerAccessor .nextDc s rfl
  · rw [← firstDraw]
    exact exec_accessor_default (i := .nextDc) rfl s

theorem value64_resultDc (y : Word) : value64 (resultDc y) = some (doubleClosed y).real.toRat := by
  rw [resultDc, dataOfDouble, doubleClosed_eq]
  exact value64_rn64 (scaledProduct_lt y) (by decide) (by decide)

/-- The unit in the last place of the exact product is at most 2^-53, so that rounding moves it by at most 2^-54. -/
theorem abs_doubleClosed_sub_le (y : Word) :
    |(doubleClosed y).real.toRat - (scaledProduct y : ℚ) / 2 ^ 64| ≤ 1 / 2 ^ 54 := by
  rw [doubleClosed_eq]
  rcases Nat.eq_zero_or_pos (scaledProduct y) with h | h
  · rw [h, rn64, Format.round_zero]
    norm_num
  have ulp : binary64.ulpExponent ⟨scaledProduct y, 1, -64⟩ ≤ -53 := by
    have := (Nat.log2_lt h.ne').mpr (scaledProduct_lt y)
    rw [Format.ulpExponent, floorLog2_dyadic h]
    simp only [binary64]
    omega
  have half := binary64.abs_round_sub_le (x := ⟨scaledProduct y, 1, -64⟩) h.ne' one_ne_zero
  rw [Exact.toRat_dyadic] at half
  calc _ ≤ (1 : ℚ) / 2 * 2 ^ binary64.ulpExponent ⟨scaledProduct y, 1, -64⟩ := half
    _ ≤ 1 / 2 * 2 ^ (-53 : Int) := by gcongr; norm_num
    _ = 1 / 2 ^ 54 := by norm_num

/-- A larger draw has a larger result: the products lie 2^-32 apart, further than the two roundings can move them
(R172 item 2). -/
theorem doubleClosed_lt {y z : Word} (h : y.toNat < z.toNat) :
    (doubleClosed y).real.toRat < (doubleClosed z).real.toRat := by
  have apart : (scaledProduct y : ℚ) + 2 ^ 32 ≤ scaledProduct z := by
    have : scaledProduct y + 2 ^ 32 ≤ scaledProduct z := by
      rw [scaledProduct, scaledProduct]
      omega
    exact_mod_cast this
  have high := (abs_le.mp (abs_doubleClosed_sub_le y)).2
  have low := (abs_le.mp (abs_doubleClosed_sub_le z)).1
  linarith

theorem doubleClosed_le {y z : Word} (h : y.toNat ≤ z.toNat) :
    (doubleClosed y).real.toRat ≤ (doubleClosed z).real.toRat := by
  rcases h.lt_or_eq with lt | eq
  · exact (doubleClosed_lt lt).le
  · rw [BitVec.eq_of_toNat_eq eq]

theorem doubleClosed_inj {y z : Word} : (doubleClosed y).real.toRat = (doubleClosed z).real.toRat ↔ y = z := by
  refine ⟨fun h => ?_, fun h => h ▸ rfl⟩
  rcases lt_trichotomy y.toNat z.toNat with lt | eq | gt
  · exact absurd h (doubleClosed_lt lt).ne
  · exact BitVec.eq_of_toNat_eq eq
  · exact absurd h (doubleClosed_lt gt).ne'

/-- Settles O39: the results rise strictly with the draws, from 0 at the smallest to 1 at the largest. -/
theorem doubleClosedCoversTheClosedInterval : Obligations.DoubleClosedCoversTheClosedInterval := by
  unfold Obligations.DoubleClosedCoversTheClosedInterval
  have ends : doubleClosed 0#32 = ⟨0, 0⟩ ∧ doubleClosed 0xFFFFFFFF#32 = ⟨2 ^ 53, -53⟩ := by decide +kernel
  obtain ⟨smallest, largest⟩ := ends
  have zero : (doubleClosed 0#32).real.toRat = 0 := by rw [smallest]; simp
  have one : (doubleClosed 0xFFFFFFFF#32).real.toRat = 1 := by rw [largest]; norm_num
  refine ⟨fun y => ⟨_, value64_resultDc y, ?_, ?_, ?_, ?_⟩, fun y z h => ?_⟩
  · exact zero ▸ doubleClosed_le (Nat.zero_le _)
  · exact one ▸ doubleClosed_le (Nat.le_of_lt_succ y.isLt)
  · rw [← zero, doubleClosed_inj]
  · rw [← one, doubleClosed_inj]
  · have := congrArg value64 h
    rwa [value64_resultDc, value64_resultDc, Option.some_inj, doubleClosed_inj] at this

end Sys2Proof.Machine
end

section
/-! NEXT.DC against the rejected quotient reading (R172 item 3): both round over one unit in the last place, and the quotient
exceeds the product by so little that the excess decides nothing but a tie, which it turns upwards. -/

namespace Sys2Proof.Machine

open Sys2Proof.Safety

/-- A positive excess too small to lift the remainder over half the divisor turns a tie upwards and changes nothing else. -/
theorem roundQuotient_add_excess {n u d r : Nat} (hu : 0 < u) (hr : 0 < r) (small : 2 * r < d ∨ r < d ∧ 2 ∣ u) :
    roundQuotient (n * d + r) (u * d) = if 2 * (n % u) = u then n / u + 1 else roundQuotient n u := by
  have hm : n % u < u := Nat.mod_lt n hu
  have room : (n % u + 1) * d ≤ u * d := Nat.mul_le_mul_right d hm
  have split : (n * d + r) / (u * d) = n / u ∧ (n * d + r) % (u * d) = n % u * d + r := by
    have hd : 0 < d := by omega
    rw [Nat.div_mod_unique (Nat.mul_pos hu hd)]
    refine ⟨?_, by rw [Nat.add_mul] at room; omega⟩
    calc n % u * d + r + u * d * (n / u) = (n % u + u * (n / u)) * d + r := by ring
      _ = n * d + r := by rw [Nat.mod_add_div]
  obtain ⟨quotient, remainder⟩ := split
  rw [roundQuotient, roundQuotient, quotient, remainder]
  rcases lt_trichotomy (2 * (n % u)) u with below | tie | above
  · have low : 2 * (n % u * d + r) < u * d := by
      rcases small with half | ⟨less, v, rfl⟩
      · nlinarith
      · nlinarith [Nat.mul_le_mul_right d (show n % (2 * v) + 1 ≤ v by omega)]
    rw [if_pos low, if_neg below.ne, if_pos below]
  · have high : u * d < 2 * (n % u * d + r) := by nlinarith
    rw [if_neg high.not_gt, if_pos high, if_pos tie]
  · have high : u * d < 2 * (n % u * d + r) := by nlinarith
    rw [if_neg high.not_gt, if_pos high, if_neg above.ne', if_neg above.not_gt, if_pos above]

variable {y : Word}

theorem scaledProduct_pos (h : 0 < y.toNat) : 0 < scaledProduct y := Nat.mul_pos h (by decide)

/-- The place of the product's highest bit: one less than its bit length (R172). -/
def topBit (y : Word) : Nat := Nat.log2 (scaledProduct y)

/-- The factor that brings a product of fewer than 53 bits up to a full significand. -/
def filler (y : Word) : Nat := 2 ^ (52 - topBit y)

theorem topBit_lt (h : 0 < y.toNat) : topBit y < 64 :=
  (Nat.log2_lt (scaledProduct_pos h).ne').mpr (scaledProduct_lt y)

theorem productUlp_eq (y : Word) : productUlp y = 2 ^ (topBit y - 52) := by
  rw [productUlp, topBit, show Nat.log2 (scaledProduct y) + 1 - 53 = Nat.log2 (scaledProduct y) - 52 by omega]

theorem productUlp_of_topBit_le (h : topBit y ≤ 52) : productUlp y = 1 := by
  rw [productUlp_eq, Nat.sub_eq_zero_of_le h, Nat.pow_zero]

theorem filler_of_lt_topBit (h : 52 < topBit y) : filler y = 1 := by
  rw [filler, Nat.sub_eq_zero_of_le h.le, Nat.pow_zero]

/-- The product, and the excess of the quotient over it, in units of 2^-64 over the divisor 2^32 - 1 (R172 item 3). -/
theorem draw_mul_eq_product_add_excess (y : Word) : y.toNat * 2 ^ 64 = scaledProduct y * 4294967295 + y.toNat := by
  rw [scaledProduct]
  omega

/-- Above 0 and below the largest draw, the quotient has the exponent of the product: no power of two lies between them. -/
theorem floorLog2_quotient (h : 0 < y.toNat) (hlt : y.toNat < 4294967295) :
    (Exact.quotient y.toNat 4294967295).floorLog2 = topBit y - 64 := by
  have low : (2 : ℚ) ^ topBit y ≤ scaledProduct y := by exact_mod_cast Nat.log2_self_le (scaledProduct_pos h).ne'
  have high : (scaledProduct y : ℚ) + 1 ≤ 2 ^ (topBit y + 1) := by
    exact_mod_cast (Nat.lt_log2_self : scaledProduct y < _)
  have excess : (y.toNat : ℚ) * 2 ^ 64 = scaledProduct y * 4294967295 + y.toNat := by
    exact_mod_cast draw_mul_eq_product_add_excess y
  have less : (y.toNat : ℚ) < 4294967295 := by exact_mod_cast hlt
  have value : (Exact.quotient y.toNat 4294967295).toRat = (y.toNat : ℚ) / 4294967295 := by
    simp [Exact.quotient, Exact.toRat]
  have power (k : Nat) : (2 : ℚ) ^ ((k : Int) - 64) = 2 ^ k / 2 ^ 64 := by
    rw [zpow_sub₀ (by norm_num), zpow_natCast]
    rfl
  have next : (topBit y : Int) - 64 + 1 = (topBit y + 1 : Nat) - 64 := by omega
  refine Exact.floorLog2_eq h.ne' (show 4294967295 ≠ 0 by decide) ?_ ?_
  · rw [value, power, div_le_div_iff₀ (by norm_num) (by norm_num)]
    linarith
  · rw [value, next, power, div_lt_div_iff₀ (by norm_num) (by norm_num)]
    linarith

/-- NEXT.DC's datum: the product without the bits below the last place of the significand. -/
theorem doubleClosed_datum (h : 0 < y.toNat) :
    doubleClosed y = ⟨roundQuotient (scaledProduct y * filler y) (productUlp y), topBit y - 116⟩ := by
  have up : (((53 : Nat) : Int) - 1 - topBit y).toNat = 52 - topBit y := by omega
  have down : ((topBit y : Int) - (((53 : Nat) : Int) - 1)).toNat = topBit y - 52 := by omega
  have unit : (topBit y : Int) + -64 - (((53 : Nat) : Int) - 1) = topBit y - 116 := by omega
  rw [doubleClosed_eq, rn64, binary64.round_dyadic (scaledProduct_pos h) (by simp only [binary64]; omega), ← topBit]
  simp only [binary64]
  rw [up, down, unit, filler, productUlp_eq]

/-- The quotient's datum, over the same unit in the last place. -/
theorem quotient_datum (h : 0 < y.toNat) (hlt : y.toNat < 4294967295) :
    rn64 (Exact.quotient y.toNat 4294967295)
      = ⟨roundQuotient (y.toNat * 2 ^ (116 - topBit y)) 4294967295, topBit y - 116⟩ := by
  have top := topBit_lt h
  have ulp : binary64.ulpExponent (Exact.quotient y.toNat 4294967295) = topBit y - 116 := by
    rw [Format.ulpExponent, floorLog2_quotient h hlt]
    simp only [binary64]
    omega
  have up : (0 + -((topBit y : Int) - 116)).toNat = 116 - topBit y := by omega
  have down : (-(0 + -((topBit y : Int) - 116))).toNat = 0 := by omega
  rw [rn64, binary64.round_of_num_ne_zero (show (Exact.quotient y.toNat 4294967295).num ≠ 0 from h.ne'), ulp]
  simp only [Exact.scaled, Exact.quotient, up, down, Nat.pow_zero, Nat.mul_one]

/-- Where the product is itself a binary64 value, the excess is below half its unit in the last place; else it is below one
unit of 2^-64, and the unit in the last place is a larger power of two. -/
theorem excess_small (hlt : y.toNat < 4294967295) :
    2 * (y.toNat * filler y) < 4294967295 ∨ y.toNat * filler y < 4294967295 ∧ 2 ∣ productUlp y := by
  rcases le_or_gt (topBit y) 52 with exact | inexact
  · left
    have shifted : y.toNat * 2 ^ 32 * filler y < 2 ^ 53 := calc
      _ ≤ scaledProduct y * filler y := Nat.mul_le_mul_right _ (Nat.mul_le_mul_left _ (by decide))
      _ < 2 ^ (topBit y + 1) * filler y := Nat.mul_lt_mul_of_pos_right Nat.lt_log2_self (Nat.two_pow_pos _)
      _ = 2 ^ 53 := by
        rw [filler, ← Nat.pow_add]
        congr 1
        omega
    rw [Nat.mul_right_comm] at shifted
    omega
  · right
    rw [filler_of_lt_topBit inexact, Nat.mul_one, productUlp_eq]
    exact ⟨hlt, dvd_pow_self 2 (by omega)⟩

/-- The quotient's significand is the product's, but for a tie of the product, which the quotient lies above. -/
theorem quotient_sig (h : 0 < y.toNat) (hlt : y.toNat < 4294967295) :
    roundQuotient (y.toNat * 2 ^ (116 - topBit y)) 4294967295
      = if 2 * (scaledProduct y * filler y % productUlp y) = productUlp y
        then scaledProduct y * filler y / productUlp y + 1
        else roundQuotient (scaledProduct y * filler y) (productUlp y) := by
  have top := topBit_lt h
  have scaled : y.toNat * 2 ^ (116 - topBit y) * productUlp y
      = scaledProduct y * filler y * 4294967295 + y.toNat * filler y := calc
    _ = y.toNat * 2 ^ 64 * filler y := by
      rw [productUlp_eq, filler, Nat.mul_assoc, ← Nat.pow_add, Nat.mul_assoc, ← Nat.pow_add]
      congr 2
      omega
    _ = _ := by
      rw [draw_mul_eq_product_add_excess]
      ring
  have pos : 0 < productUlp y := Nat.two_pow_pos _
  rw [← roundQuotient_cancel _ _ pos, scaled, Nat.mul_comm 4294967295]
  exact roundQuotient_add_excess pos (Nat.mul_pos h (Nat.two_pow_pos _)) (excess_small hlt)

/-- A tie has more than 53 bits. -/
theorem lt_topBit_of_tie (h : ProductIsTie y) : 52 < topBit y := by
  obtain ⟨inexact, -⟩ := h
  exact Nat.le_of_succ_le_succ inexact

/-- The rule's condition for a tie is that the significand's division leaves half the divisor. -/
theorem productIsTie_iff : ProductIsTie y ↔ 2 * (scaledProduct y * filler y % productUlp y) = productUlp y := by
  rcases le_or_gt (topBit y) 52 with exact | inexact
  · rw [productUlp_of_topBit_le exact, Nat.mod_one]
    exact iff_of_false (fun tie => exact.not_gt (lt_topBit_of_tie tie)) (by decide)
  · rw [filler_of_lt_topBit inexact, Nat.mul_one, Nat.mul_comm]
    exact and_iff_right (Nat.succ_le_succ inexact)

/-- Away from the ties the two readings are one datum. -/
theorem quotient_datum_of_not_tie (h : 0 < y.toNat) (hlt : y.toNat < 4294967295) (hn : ¬ ProductIsTie y) :
    rn64 (Exact.quotient y.toNat 4294967295) = doubleClosed y := by
  rw [quotient_datum h hlt, doubleClosed_datum h, quotient_sig h hlt, if_neg (mt productIsTie_iff.mpr hn)]

/-- At a tie the product goes to the even one of the two neighbours, and the quotient to the upper one. -/
theorem data_of_tie (h : 0 < y.toNat) (hlt : y.toNat < 4294967295) (tie : ProductIsTie y) :
    doubleClosed y
        = ⟨scaledProduct y / productUlp y + scaledProduct y / productUlp y % 2, topBit y - 116⟩
      ∧ rn64 (Exact.quotient y.toNat 4294967295) = ⟨scaledProduct y / productUlp y + 1, topBit y - 116⟩ := by
  have half := productIsTie_iff.mp tie
  rw [quotient_datum h hlt, doubleClosed_datum h, quotient_sig h hlt, if_pos half, roundQuotient, if_neg half.not_lt,
    if_neg half.not_gt, filler_of_lt_topBit (lt_topBit_of_tie tie), Nat.mul_one]
  exact ⟨rfl, rfl⟩

/-- The lower neighbour of a tie has a significand of 53 bits. -/
theorem lowerNeighbour_bounds (h : 0 < y.toNat) (tie : ProductIsTie y) :
    0 < scaledProduct y / productUlp y ∧ scaledProduct y / productUlp y < 2 ^ 53 := by
  have inexact := lt_topBit_of_tie tie
  have low : 2 ^ topBit y ≤ scaledProduct y := Nat.log2_self_le (scaledProduct_pos h).ne'
  have high : scaledProduct y < 2 ^ (topBit y + 1) := Nat.lt_log2_self
  rw [productUlp_eq, Nat.div_lt_iff_lt_mul (Nat.two_pow_pos _), ← Nat.pow_add]
  exact ⟨Nat.div_pos ((Nat.pow_le_pow_right (by decide) (by omega)).trans low) (Nat.two_pow_pos _),
    high.trans_le (Nat.pow_le_pow_right (by decide) (by omega))⟩

/-- Two normal data over one unit in the last place have one encoding only where they have one significand. -/
theorem sig_eq_of_f64bits_eq {m n : Nat} {e : Int} (hm : 0 < m ∧ m ≤ 2 ^ 53) (hn : 0 < n ∧ n ≤ 2 ^ 53) (hlo : -1022 ≤ e)
    (hhi : e ≤ 970) (h : f64bits ⟨m, e⟩ = f64bits ⟨n, e⟩) : m = n := by
  have value {k : Nat} (hk : 0 < k ∧ k ≤ 2 ^ 53) : value64 (f64bits ⟨k, e⟩) = some ((k : ℚ) * 2 ^ e) := by
    have top : Nat.log2 k < 54 := (Nat.log2_lt hk.1.ne').mpr (hk.2.trans_lt (by decide))
    rw [value64_f64bits hk.1 hk.2 (by dsimp only; omega) (by dsimp only; omega), Datum.real_toRat]
  have same := congrArg value64 h
  rw [value hm, value hn, Option.some_inj] at same
  exact_mod_cast mul_right_cancel₀ (by positivity) same

/-- At a tie the encodings differ where the lower neighbour is even, and there only: the product's even neighbour is then not
the quotient's upper one. -/
theorem resultDc_ne_quotientReading_iff_of_tie (h : 0 < y.toNat) (hlt : y.toNat < 4294967295) (tie : ProductIsTie y) :
    resultDc y ≠ quotientReading y ↔ LowerNeighbourIsEven y := by
  obtain ⟨product, quotient⟩ := data_of_tie h hlt tie
  obtain ⟨pos, below⟩ := lowerNeighbour_bounds h tie
  rw [resultDc, dataOfDouble, quotientReading, product, quotient, LowerNeighbourIsEven]
  rcases Nat.mod_two_eq_zero_or_one (scaledProduct y / productUlp y) with even | odd
  · rw [even, Nat.add_zero]
    have top := topBit_lt h
    refine iff_of_true (fun same => absurd ?_ (Nat.succ_ne_self (scaledProduct y / productUlp y)).symm) rfl
    exact sig_eq_of_f64bits_eq ⟨pos, below.le⟩ ⟨Nat.succ_pos _, below⟩ (by omega) (by omega) same
  · rw [odd]
    exact iff_of_false (fun differ => differ rfl) (by decide)

/-- The draw 0 gives 0 and the largest draw gives 1 in both readings, and neither product is a tie. -/
theorem readings_agree_at_ends (h : y = 0#32 ∨ y = 0xFFFFFFFF#32) :
    resultDc y = quotientReading y ∧ ¬ ProductIsTie y := by
  rw [ProductIsTie]
  obtain rfl | rfl := h
  · decide +kernel
  · decide +kernel

/-- Settles O40: at a tie by `resultDc_ne_quotientReading_iff_of_tie`; away from the ties, and at the two ends, the readings
agree. -/
theorem doubleClosedDiffersFromTheQuotientAtLowerEvenTies :
    Obligations.DoubleClosedDiffersFromTheQuotientAtLowerEvenTies := by
  unfold Obligations.DoubleClosedDiffersFromTheQuotientAtLowerEvenTies
  intro y
  by_cases ends : y = 0#32 ∨ y = 0xFFFFFFFF#32
  · obtain ⟨agree, noTie⟩ := readings_agree_at_ends ends
    exact iff_of_false (fun differ => differ agree) (fun both => noTie both.1)
  obtain ⟨notZero, notTop⟩ := not_or.mp ends
  have h : 0 < y.toNat := Nat.pos_of_ne_zero fun zero => notZero (BitVec.eq_of_toNat_eq zero)
  have hlt : y.toNat < 4294967295 := by
    have bound := y.isLt
    have below : y.toNat ≠ 4294967295 := fun top => notTop (BitVec.eq_of_toNat_eq top)
    omega
  by_cases tie : ProductIsTie y
  · rw [resultDc_ne_quotientReading_iff_of_tie h hlt tie, and_iff_right tie]
  · have agree : resultDc y = quotientReading y := congrArg f64bits (quotient_datum_of_not_tie h hlt tie).symm
    exact iff_of_false (fun differ => differ agree) (fun both => tie both.1)

end Sys2Proof.Machine
end

section
/-! Rounding a dyadic value: the result depends on the value alone, loses nothing where the integer fits the significand or is
the power of two above it, and drops a residue below half a unit in the last place (R14). -/

namespace Sys2Proof.Machine

/-- A residue below half the divisor does not move the nearest integer. -/
theorem roundQuotient_mul_add (q : Nat) {d r : Nat} (h : 2 * r < d) : roundQuotient (q * d + r) d = q := by
  have small : r < d := by omega
  have residue : (q * d + r) % d = r := by rw [Nat.mul_add_mod_self_right, Nat.mod_eq_of_lt small]
  rw [roundQuotient, residue, if_pos h, Nat.add_comm, Nat.add_mul_div_right _ _ (by omega), Nat.div_eq_of_lt small,
    Nat.zero_add]

/-- Half an odd number is a tie, which goes to the even neighbour (R192). -/
theorem roundQuotient_half_odd (n : Nat) : roundQuotient (n * 2 + 1) 2 = n + n % 2 := by
  have quotient : (n * 2 + 1) / 2 = n := by omega
  have residue : (n * 2 + 1) % 2 = 1 := by omega
  simp [roundQuotient, quotient, residue]

namespace Exact

/-- Adding 0.5 adds 1/2. -/
theorem toRat_add_half {x : Exact} (h : x.den = 1) : (x.add half).toRat = x.toRat + 1 / 2 := by
  obtain ⟨n, _, e⟩ := x
  obtain rfl : _ = 1 := h
  have unit (k : Int) (hk : min e (-1) ≤ k) : (2 : ℚ) ^ (k - min e (-1)).toNat * 2 ^ min e (-1) = 2 ^ k := by
    rw [← zpow_natCast, Int.toNat_of_nonneg (by omega), ← zpow_add₀ two_ne_zero, sub_add_cancel]
  rw [add_half, toRat_dyadic, toRat_dyadic, Nat.cast_add, Nat.cast_mul, add_mul, mul_assoc]
  push_cast
  rw [unit e (min_le_left _ _), unit (-1) (min_le_right _ _)]
  norm_num

end Exact

namespace Format

variable (f : Format) {n r : Nat} {e : Int}

/-- Dyadic values that are equal are rounded to one datum. -/
theorem round_congr {x y : Exact} (hx : x.den = 1) (hy : y.den = 1) (h : x.toRat = y.toRat) : f.round x = f.round y := by
  wlog le : x.exp ≤ y.exp generalizing x y
  · exact (this hy hx h.symm (by omega)).symm
  obtain ⟨m, _, d⟩ := x
  obtain ⟨n, _, e⟩ := y
  obtain rfl : _ = 1 := hx
  obtain rfl : _ = 1 := hy
  dsimp only at le
  obtain ⟨k, rfl⟩ : ∃ k : Nat, d = e - k := ⟨(e - d).toNat, by omega⟩
  have integers : (m : ℚ) = n * 2 ^ k := by
    rw [Exact.toRat_dyadic, Exact.toRat_dyadic, zpow_sub₀ two_ne_zero, zpow_natCast] at h
    field_simp at h
    rw [h, mul_comm]
  have integers : m = n * 2 ^ k := by exact_mod_cast integers
  rw [integers, round_shift]

/-- A dyadic value whose integer is at most the next power of two above the significand, as rounding leaves it, is rounded
without loss. -/
theorem toRat_round_of_le (hn : n ≤ 2 ^ f.prec) (hp : 1 ≤ f.prec) (he : f.emin ≤ e) :
    (f.round ⟨n, 1, e⟩).real.toRat = n * 2 ^ e := by
  rcases hn.lt_or_eq with lt | rfl
  · exact f.toRat_round_of_fits lt he
  have value : (Exact.mk (2 ^ f.prec) 1 e).toRat = (Exact.mk 1 1 (f.prec + e)).toRat := by
    simp [zpow_add₀]
  rw [f.round_congr rfl rfl value, f.toRat_round_of_fits (Nat.one_lt_two_pow (by omega)) (by omega), ← Exact.toRat_dyadic,
    ← value, Exact.toRat_dyadic]

/-- Rounding drops a residue below half a unit in the last place of a full significand. -/
theorem round_add_of_small {q t : Nat} (hp : 1 ≤ f.prec) (low : 2 ^ (f.prec - 1) ≤ q) (high : q < 2 ^ f.prec)
    (small : 2 * r < 2 ^ t) (he : f.emin ≤ e) : f.round ⟨q * 2 ^ t + r, 1, e⟩ = ⟨q, t + e⟩ := by
  have below : 2 ^ (f.prec - 1 + t) ≤ q * 2 ^ t + r := by
    rw [Nat.pow_add]
    exact Nat.le_add_right_of_le (Nat.mul_le_mul_right _ low)
  have above : q * 2 ^ t + r < 2 ^ (f.prec - 1 + t + 1) := calc
    q * 2 ^ t + r < (q + 1) * 2 ^ t := by rw [Nat.succ_mul]; omega
    _ ≤ 2 ^ f.prec * 2 ^ t := Nat.mul_le_mul_right _ high
    _ = 2 ^ (f.prec - 1 + t + 1) := by rw [← Nat.pow_add]; congr 1; omega
  have pos : 0 < q * 2 ^ t + r := (Nat.two_pow_pos _).trans_le below
  have log : Nat.log2 (q * 2 ^ t + r) = f.prec - 1 + t := (Nat.log2_eq_iff pos.ne').mpr ⟨below, above⟩
  have dropped : Nat.log2 (q * 2 ^ t + r) + 1 - f.prec = t := by omega
  rw [f.round_inexact pos (by omega) (by omega), dropped, roundQuotient_mul_add q small]
  congr 1
  omega

/-- A significand that rounding has carried to the next power of two is a full one over the next unit. -/
theorem exists_full_sig {d : Datum} (hp : 1 ≤ f.prec) (low : 2 ^ (f.prec - 1) ≤ d.sig) (high : d.sig ≤ 2 ^ f.prec) :
    ∃ (q : Nat) (t : Int), 2 ^ (f.prec - 1) ≤ q ∧ q < 2 ^ f.prec ∧ d.exp ≤ t ∧ d.real.toRat = q * 2 ^ t := by
  rcases high.lt_or_eq with lt | eq
  · exact ⟨d.sig, d.exp, low, lt, le_rfl, d.real_toRat⟩
  · have power : d.sig = 2 ^ (f.prec - 1) * 2 := by rw [eq, Nat.two_pow_pred_mul_two hp]
    refine ⟨2 ^ (f.prec - 1), d.exp + 1, le_rfl, Nat.two_pow_pred_lt_two_pow hp, by omega, ?_⟩
    rw [d.real_toRat, power, zpow_add_one₀ two_ne_zero]
    push_cast
    ring

/-- Adding 0.5 changes no datum whose unit in the last place is 2 or more (R192). -/
theorem toRat_round_add_half {d : Datum} (hp : 1 ≤ f.prec) (low : 2 ^ (f.prec - 1) ≤ d.sig) (high : d.sig ≤ 2 ^ f.prec)
    (unit : 1 ≤ d.exp) (he : f.emin ≤ -1) : (f.round (d.real.add Exact.half)).real.toRat = d.real.toRat := by
  obtain ⟨q, t, full, fits, le, value⟩ := f.exists_full_sig hp low high
  lift t to Nat using by omega
  have sum : (d.real.add Exact.half).toRat = (Exact.mk (q * 2 ^ (t + 1) + 1) 1 (-1)).toRat := by
    rw [Exact.toRat_add_half rfl, value, Exact.toRat_dyadic, zpow_natCast]
    push_cast
    ring
  have small : 2 * 1 < 2 ^ (t + 1) := calc
    2 * 1 < 2 ^ 2 := by decide
    _ ≤ 2 ^ (t + 1) := Nat.pow_le_pow_right two_pos (by omega)
  rw [value, f.round_congr rfl rfl sum, f.round_add_of_small hp full fits small he, Datum.real_toRat, Nat.cast_succ,
    add_neg_cancel_right]

end Format

end Sys2Proof.Machine
end

section
/-! The single-precision results (R190 to R194): each is a datum of binary32, the converted draw or its sum with 0.5, scaled by
2^-32 without loss. -/

namespace Sys2Proof.Machine

open Sys2Proof.Safety

/-- The converted draw with 0.5 added in binary32, before it is scaled (R192). -/
def singleSum (y : Word) : Datum := rn32 ((singleOfWord y).real.add Exact.half)

theorem singleOpen_eq (y : Word) : singleOpen y = rn32 ((singleSum y).real.mul scaleFlc.real) := rfl

/-- The constant 2^-32 scales a datum without loss where the exponent is that of a draw, or of a draw with 0.5 added. -/
theorem value32_scaledFlc {d : Datum} (fits : d.sig ≤ 2 ^ 24) (low : -46 ≤ d.exp) (high : d.exp ≤ 10) :
    value32 (f32bits (rn32 (d.real.mul scaleFlc.real))) = some (d.real.toRat / 2 ^ 32) := by
  have scaled : rn32 (d.real.mul scaleFlc.real) = rn32 ⟨d.sig, 1, d.exp - 32⟩ := by
    rw [scaleFlc_eq, rn32, rn32, ← binary32.round_shift d.sig 23, sub_sub]
    rfl
  have value : (rn32 ⟨d.sig, 1, d.exp - 32⟩).real.toRat = d.sig * 2 ^ (d.exp - 32) :=
    binary32.toRat_round_of_le fits (by decide) (show -126 ≤ d.exp - 32 by omega)
  rw [scaled, value32_rn32 (k := 25) (by omega) (by omega) (by omega), value, zpow_sub₀ two_ne_zero, ← mul_div_assoc,
    Datum.real_toRat]
  rfl

theorem value32_singleLeftClosed (y : Word) :
    value32 (f32bits (singleLeftClosed y)) = some ((singleOfWord y).real.toRat / 2 ^ 32) := by
  obtain ⟨fits, low, high⟩ := singleOfWord_bounds y
  exact value32_scaledFlc fits (by omega) (by omega)

theorem value32_singleOpen (y : Word) :
    value32 (f32bits (singleOpen y)) = some ((singleSum y).real.toRat / 2 ^ 32) := by
  obtain ⟨n, e, sum, pos, bound, hlo, hhi⟩ := singleOfWord_add_half y
  have exponent : e - 23 ≤ (rn32 ⟨n, 1, e⟩).exp ∧ (rn32 ⟨n, 1, e⟩).exp ≤ 34 + e - 24 :=
    binary32.round_exp_bounds pos bound (show -126 ≤ e by omega)
  rw [singleOpen_eq, singleSum, sum]
  exact value32_scaledFlc (binary32.round_sig_le one_ne_zero) (by omega) (by omega)

/-! ### The converted draw -/

/-- From 2^24 on the converted draw is the nearest multiple of the unit in the last place (R190). -/
theorem singleOfWord_of_le {y : Word} (h : 2 ^ 24 ≤ y.toNat) :
    singleOfWord y = ⟨roundQuotient y.toNat (2 ^ (Nat.log2 y.toNat - 23)), Nat.log2 y.toNat - 23⟩ := by
  have log : 24 ≤ Nat.log2 y.toNat := (Nat.le_log2 (by omega)).mpr h
  have rounded := binary32.round_inexact (n := y.toNat) (e := 0) (by omega) (by simp only [binary32]; omega)
    (by simp only [binary32]; omega)
  rw [singleOfWord, realOfWord_eq, rn32, rounded]
  simp [binary32]

/-- The converted draw has the value `RN32(u)` (R190). -/
theorem toRat_singleOfWord (y : Word) : (singleOfWord y).real.toRat = roundedTo24Bits y.toNat := by
  rcases Nat.lt_or_ge y.toNat (2 ^ 24) with h | h
  · rw [roundedTo24Bits, if_pos h, singleOfWord, realOfWord_eq, rn32, binary32.toRat_round_of_fits h (by decide), zpow_zero,
      mul_one]
  · have log : 24 ≤ Nat.log2 y.toNat := (Nat.le_log2 (by omega)).mpr h
    rw [roundedTo24Bits, if_neg (by omega), singleOfWord_of_le h, Datum.real_toRat, Nat.cast_mul, Nat.cast_pow,
      ← zpow_natCast, Nat.cast_sub (by omega)]
    rfl

/-- Rounding moves a draw by at most half of the largest unit in the last place, which is 2^8. -/
theorem roundedTo24Bits_near {u : Nat} (h : u < 2 ^ 32) : u ≤ roundedTo24Bits u + 128 ∧ roundedTo24Bits u ≤ u + 128 := by
  rw [roundedTo24Bits]
  split
  · omega
  · have log : Nat.log2 u < 32 := (Nat.log2_lt (by omega)).mpr h
    have unit : 2 ^ (Nat.log2 u - 23) ≤ 2 ^ 8 := Nat.pow_le_pow_right two_pos (by omega)
    have low := roundQuotient_le u (Nat.two_pow_pos (Nat.log2 u - 23))
    have high := le_roundQuotient u (Nat.two_pow_pos (Nat.log2 u - 23))
    rw [add_mul, mul_assoc] at low
    omega

/-- Below 0xFFFFFF80 no draw rounds up to 2^32 (R194). -/
theorem roundedTo24Bits_lt {u : Nat} (h : u < 0xFFFFFF80) : roundedTo24Bits u < 2 ^ 32 := by
  obtain ⟨-, high⟩ := roundedTo24Bits_near (u := u) (by omega)
  omega

/-- From 0xFFFFFF80 on every draw is converted to 2^32 (R190). -/
theorem singleOfWord_top {y : Word} (h : 0xFFFFFF80 ≤ y.toNat) : singleOfWord y = ⟨2 ^ 24, 8⟩ := by
  have bound := y.isLt
  have log : Nat.log2 y.toNat = 31 := (Nat.log2_eq_iff (by omega)).mpr ⟨by omega, by omega⟩
  have carried : roundQuotient y.toNat 256 = 2 ^ 24 := by
    have quotient : y.toNat / 256 = 2 ^ 24 - 1 := by omega
    have residue : 128 ≤ y.toNat % 256 := by omega
    rw [roundQuotient, quotient, if_neg (by omega)]
    split <;> rfl
  rw [singleOfWord_of_le (by omega), log, show 2 ^ (31 - 23) = 256 from rfl, carried]
  rfl

/-! ### The sum with 0.5 -/

/-- Below 2^24 the draw is converted exactly, so that the sum is one rounding of u + 0.5 (R192). -/
theorem singleSum_of_lt {y : Word} (h : y.toNat < 2 ^ 24) :
    singleSum y = rn32 ⟨y.toNat * 2 + 1, 1, -1⟩ := by
  refine binary32.round_congr rfl rfl ?_
  rw [Exact.toRat_add_half rfl, toRat_singleOfWord, roundedTo24Bits, if_pos h, Exact.toRat_dyadic]
  push_cast
  ring

/-- Below 2^23 the sum is exact (R192). -/
theorem toRat_singleSum_exact {y : Word} (h : y.toNat < 2 ^ 23) : (singleSum y).real.toRat = y.toNat + 1 / 2 := by
  rw [singleSum_of_lt (by omega), rn32, binary32.toRat_round_of_fits (show y.toNat * 2 + 1 < 2 ^ 24 by omega) (by decide)]
  push_cast
  ring

/-- From 2^23 to 2^24 the sum is a tie, which goes to the even neighbour (R192). -/
theorem toRat_singleSum_tie {y : Word} (low : 2 ^ 23 ≤ y.toNat) (high : y.toNat < 2 ^ 24) :
    (singleSum y).real.toRat = (y.toNat + y.toNat % 2 : Nat) := by
  have log : Nat.log2 (y.toNat * 2 + 1) = 24 := (Nat.log2_eq_iff (by omega)).mpr ⟨by omega, by omega⟩
  rw [singleSum_of_lt high, rn32, binary32.round_inexact (by omega) (by rw [log]; decide) (by rw [log]; decide), log]
  simp [binary32, roundQuotient_half_odd]

/-- From 2^24 on the sum is the converted draw (R192). -/
theorem toRat_singleSum_absorbed {y : Word} (h : 2 ^ 24 ≤ y.toNat) :
    (singleSum y).real.toRat = roundedTo24Bits y.toNat := by
  have log : 24 ≤ Nat.log2 y.toNat := (Nat.le_log2 (by omega)).mpr h
  have full : 2 ^ 23 ≤ (singleOfWord y).sig :=
    binary32.le_round_sig (n := y.toNat) (e := 0) (by decide) (by omega) (by simp only [binary32]; omega)
  have unit : 1 ≤ (singleOfWord y).exp := by
    rw [singleOfWord_of_le h]
    dsimp only
    omega
  obtain ⟨fits, -, -⟩ := singleOfWord_bounds y
  rw [← toRat_singleOfWord]
  exact binary32.toRat_round_add_half (by decide) full fits unit (by decide)

/-- No sum is below 0.5 (R194). -/
theorem half_le_singleSum (y : Word) : 1 / 2 ≤ (singleSum y).real.toRat := by
  have nonneg : (0 : ℚ) ≤ y.toNat := Nat.cast_nonneg _
  rcases Nat.lt_or_ge y.toNat (2 ^ 23) with small | large
  · rw [toRat_singleSum_exact small]
    linarith
  have one_le {k : Nat} (h : 0 < k) : 1 / 2 ≤ (k : ℚ) := by
    have : (1 : ℚ) ≤ k := Nat.one_le_cast.mpr h
    linarith
  rcases Nat.lt_or_ge y.toNat (2 ^ 24) with tie | absorbed
  · rw [toRat_singleSum_tie large tie]
    exact one_le (by omega)
  · rw [toRat_singleSum_absorbed absorbed]
    obtain ⟨low, -⟩ := roundedTo24Bits_near y.isLt
    exact one_le (by omega)

/-- Below 0xFFFFFF80 no sum reaches 2^32 (R194). -/
theorem singleSum_lt {y : Word} (h : y.toNat < 0xFFFFFF80) : (singleSum y).real.toRat < 2 ^ 32 := by
  rcases Nat.lt_or_ge y.toNat (2 ^ 23) with small | large
  · have : (y.toNat : ℚ) < 2 ^ 23 := by exact_mod_cast small
    rw [toRat_singleSum_exact small]
    linarith
  rcases Nat.lt_or_ge y.toNat (2 ^ 24) with tie | absorbed
  · rw [toRat_singleSum_tie large tie]
    exact_mod_cast (show y.toNat + y.toNat % 2 < 2 ^ 32 by omega)
  · rw [toRat_singleSum_absorbed absorbed]
    exact_mod_cast roundedTo24Bits_lt h

/-! ### The results -/

/-- From 0xFFFFFF80 on the results are 1.0 (R190, R191, R192). -/
theorem f32bits_top {y : Word} (h : 0xFFFFFF80 ≤ y.toNat) :
    f32bits (singleLeftClosed y) = 0x3F800000#32 ∧ f32bits (singleOpen y) = 0x3F800000#32 := by
  rw [singleLeftClosed, singleOpen, singleOfWord_top h, scaleFlc_eq]
  decide +kernel

/-- The sign bit of a result that is zero-extended to a plain binary32 encoding is clear. -/
theorem msb_f32bits {d : Datum} (h : PlainEncoding binary32 (dataOfSingle d).toNat) : (f32bits d).msb = false := by
  obtain ⟨sign, -, -⟩ := h
  rw [toNat_dataOfSingle] at sign
  have sign : (f32bits d).toNat / 2 ^ 31 % 2 = 0 := sign
  have width := (f32bits d).isLt
  rw [BitVec.msb_eq_decide, decide_eq_false_iff_not]
  omega

theorem exec_nextFc_eq_exec_nextFlc (s : State) : exec .nextFc s = exec .nextFlc s :=
  congrArg (runAccessor · s) (funext resultFc_eq_resultFlc)

/-- Settles O44: NEXT.FC has the same constant and so the same result (`resultFc_eq_resultFlc`), which is the converted draw
scaled without loss. -/
theorem nextFlcEqualsNextFc : Obligations.NextFlcEqualsNextFc := by
  unfold Obligations.NextFlcEqualsNextFc
  have corners : resultFlc 0#32 = 0#64 ∧ resultFlc 0xD091BB5C#32 = 0x000000003F5091BB#64 := by decide +kernel
  obtain ⟨zero, firstDraw⟩ := corners
  refine ⟨fun s => ⟨f32bits (singleLeftClosed s.draw.1), _, oneDrawPerAccessor .nextFlc s rfl,
    (exec_nextFc_eq_exec_nextFlc s).trans (oneDrawPerAccessor .nextFlc s rfl), rfl, ?_,
    msb_f32bits (plainEncoding_resultFlc _), fun top => (f32bits_top top).1⟩, by decide, zero, fun s => ?_⟩
  · rw [value32_singleLeftClosed, toRat_singleOfWord]
  · rw [← firstDraw]
    exact exec_accessor_default (i := .nextFlc) rfl s

/-- Settles O43: NEXT.FC's rule is NEXT.FLC's (O44). -/
theorem nextFcScalesTheRoundedDraw : Obligations.NextFcScalesTheRoundedDraw := by
  unfold Obligations.NextFcScalesTheRoundedDraw
  have corners : resultFc 0#32 = 0x00000000#64 ∧ resultFc 1#32 = 0x2F800000#64
      ∧ resultFc 0xFFFFFF7F#32 = 0x3F7FFFFF#64 ∧ resultFc 0x01000001#32 = 0x3B800000#64
      ∧ resultFc 0x01000000#32 = 0x3B800000#64 ∧ resultFc 0xD091BB5C#32 = 0x000000003F5091BB#64 := by decide +kernel
  obtain ⟨zero, one, belowTop, tie, exact24, firstDraw⟩ := corners
  obtain ⟨rule, -⟩ := nextFlcEqualsNextFc
  refine ⟨fun s => ?_, by decide, zero, one, belowTop, tie, exact24, fun s => ?_⟩
  · obtain ⟨b, _, -, run, rfl, value, sign, top⟩ := rule s
    exact ⟨b, run, value, sign, top⟩
  · rw [← firstDraw]
    exact exec_accessor_default (i := .nextFc) rfl s

/-- Settles O45: the sum in its three ranges (`toRat_singleSum_exact`, `toRat_singleSum_tie`, `toRat_singleSum_absorbed`), scaled
without loss. -/
theorem nextFoAddsHalfInSinglePrecision : Obligations.NextFoAddsHalfInSinglePrecision := by
  unfold Obligations.NextFoAddsHalfInSinglePrecision
  have corners : resultFo 0#32 = 0x2F000000#64 ∧ resultFo 1#32 = 0x2FC00000#64
      ∧ resultFo 0x00800000#32 = 0x3B000000#64 ∧ resultFo 0x00800001#32 = 0x3B000002#64
      ∧ resultFo 0xD091BB5C#32 = 0x000000003F5091BB#64 := by decide +kernel
  obtain ⟨zero, one, tieDown, tieUp, firstDraw⟩ := corners
  refine ⟨fun s => ⟨f32bits (singleOpen s.draw.1), _, oneDrawPerAccessor .nextFo s rfl, value32_singleOpen _,
    msb_f32bits (plainEncoding_resultFo _), ?_, fun small => ?_, fun low high => ?_, fun large => ?_,
    fun top => (f32bits_top top).2⟩, by decide, zero, one, tieDown, tieUp, fun s => ?_⟩
  · linarith [half_le_singleSum s.draw.1]
  · rw [toRat_singleSum_exact small]
    ring
  · rw [toRat_singleSum_tie low high]
  · rw [toRat_singleSum_absorbed large]
  · rw [← firstDraw]
    exact exec_accessor_default (i := .nextFo) rfl s

theorem setWidth_dataOfSingle (d : Datum) : (dataOfSingle d).setWidth 32 = f32bits d :=
  BitVec.eq_of_toNat_eq (by rw [BitVec.toNat_setWidth, toNat_dataOfSingle, Nat.mod_eq_of_lt (f32bits d).isLt])

/-- A value that is 1.0 for the top draws and, unscaled, below 2^32 for the others lies at most at 1 and reaches it for the
top draws alone. -/
theorem scaled_le_one_and_eq_one_iff {v : ℚ} {y : Word} {b : BitVec 32} (value : value32 b = some (v / 2 ^ 32))
    (top : 0xFFFFFF80 ≤ y.toNat → b = 0x3F800000#32) (below : y.toNat < 0xFFFFFF80 → v < 2 ^ 32) :
    v / 2 ^ 32 ≤ 1 ∧ (v / 2 ^ 32 = 1 ↔ 0xFFFFFF80 ≤ y.toNat) := by
  rcases Nat.lt_or_ge y.toNat 0xFFFFFF80 with h | h
  · have lt : v / 2 ^ 32 < 1 := (div_lt_one (by norm_num)).mpr (below h)
    exact ⟨lt.le, iff_of_false lt.ne (by omega)⟩
  · have one : value32 0x3F800000#32 = some 1 := by decide +kernel
    have eq : v / 2 ^ 32 = 1 := Option.some_injective _ (value.symm.trans (top h ▸ one))
    exact ⟨eq.le, iff_of_true eq h⟩

/-- Settles O46: the values before the scaling are at least 0 and 0.5, and below 2^32 for all but the top draws. -/
theorem singlePrecisionIntervals : Obligations.SinglePrecisionIntervals := by
  unfold Obligations.SinglePrecisionIntervals
  intro y
  have closed := value32_singleLeftClosed y
  have opened := value32_singleOpen y
  rw [toRat_singleOfWord] at closed
  have below (h : y.toNat < 0xFFFFFF80) : (roundedTo24Bits y.toNat : ℚ) < 2 ^ 32 := by exact_mod_cast roundedTo24Bits_lt h
  obtain ⟨closedLe, closedOne⟩ := scaled_le_one_and_eq_one_iff closed (fun h => (f32bits_top h).1) below
  obtain ⟨openLe, openOne⟩ := scaled_le_one_and_eq_one_iff opened (fun h => (f32bits_top h).2) singleSum_lt
  have nonneg : (0 : ℚ) ≤ roundedTo24Bits y.toNat / 2 ^ 32 := by positivity
  have positive : 1 / 2 ^ 33 ≤ (singleSum y).real.toRat / 2 ^ 32 := by linarith [half_le_singleSum y]
  rw [resultFc_eq_resultFlc, resultFlc, resultFo, setWidth_dataOfSingle, setWidth_dataOfSingle]
  exact ⟨_, _, _, closed, closed, opened, nonneg, closedLe, closedOne, nonneg, closedLe, closedOne, positive, openLe, openOne⟩

end Sys2Proof.Machine
end

section
/-! NEXT.BOOL (R210, R211): the response is the parity of the draw, which the fold gives. -/

namespace Sys2Proof.Machine

open Sys2Proof.Safety

/-- NEXT.BOOL's one response holds the parity of the one draw (R211). -/
theorem exec_nextBool_eq_parity (s : State) :
    exec .nextBool s = .next
      { s.draw.2 with responses := s.responses ++ [⟨0#1, if setBits s.draw.1 % 2 = 1 then 1#64 else 0#64⟩] } := by
  rw [← resultBool_eq_parity]
  exact oneDrawPerAccessor .nextBool s rfl

/-- Settles O47: the response is the parity (`exec_nextBool_eq_parity`), the fold's lines are the rule's, and the first draw of
the default seed has an even number of set bits. -/
theorem nextBoolIsTheParity : Obligations.NextBoolIsTheParity := by
  unfold Obligations.NextBoolIsTheParity
  have corners : resultBool 0#32 = 0#64 ∧ resultBool 0xFFFFFFFF#32 = 0#64 ∧ resultBool 1#32 = 1#64
      ∧ resultBool 0x80000000#32 = 1#64 ∧ resultBool 0x00010001#32 = 0#64
      ∧ resultBool 0xD091BB5C#32 = 0x0000000000000000#64 := by decide
  obtain ⟨zero, allOnes, lowest, highest, twoBits, firstDraw⟩ := corners
  refine ⟨exec_nextBool_eq_parity, ?_, by decide, by decide, zero, allOnes, lowest, highest, twoBits, fun s => ?_⟩
  · rintro y _ _ _ _ _ rfl rfl rfl rfl rfl
    rfl
  · rw [← firstDraw]
    exact exec_accessor_default (i := .nextBool) rfl s

end Sys2Proof.Machine
end

section
/-! Idling and power-up (R231), and runs over whole inputs: each step takes one input off the port, and none stops (R61, R262). -/

namespace Sys2Proof.Safety

open Sys2Proof.Machine

variable {s : State}

/-- Settles O13: an idle step keeps the state, and a power cycle is a reset. -/
theorem idleKeepsTheStateAndPowerUpResets : Obligations.IdleKeepsTheStateAndPowerUpResets := by
  unfold Obligations.IdleKeepsTheStateAndPowerUpResets
  exact ⟨fun _ idle => stepWith_idle Config.hardware idle, fun _ _ hin => stepWith_input Config.hardware hin⟩

/-- Of all a step can do, only the refusal of a partial transfer leads to no next state. -/
theorem step_next_of_safeInbox (safe : SafeInbox s) : ∃ t, step s = .next t ∧ t.inbox = s.inbox.tail := by
  obtain ⟨idle, hs⟩ | ⟨x, rest, hin, taken⟩ := stepWith_cases Config.hardware s
  · exact ⟨s, hs, by rw [idle, List.tail_nil]⟩
  rw [hin, List.tail_cons]
  obtain ⟨-, -, -, -, hs⟩ | ⟨-, i, -, -, hs⟩ | ⟨-, hs⟩ | ⟨width, bits, rfl, -⟩ := taken
  · exact ⟨_, hs, rfl⟩
  · obtain ⟨t, ht, inbox, -⟩ := exec_responds i { s with inbox := rest }
    exact ⟨t, hs.trans ht, inbox⟩
  · exact ⟨_, hs, rfl⟩
  · have whole : wholeInput (.partialTransfer width bits) = true := safe _ (hin ▸ List.mem_cons_self)
    cases whole

theorem safeInbox_of_suffix {t : State} (safe : SafeInbox s) (waiting : t.inbox <:+ s.inbox) : SafeInbox t :=
  fun x hx => safe x (waiting.mem hx)

theorem run_next_of_safeInbox (safe : SafeInbox s) (n : Nat) :
    ∃ t, Host.Core.run Sys2Proof.core n s = .next t ∧ t.inbox = s.inbox.drop n := by
  induction n generalizing s with
  | zero => exact ⟨s, rfl, rfl⟩
  | succ n ih =>
    obtain ⟨u, hstep, first⟩ := step_next_of_safeInbox safe
    obtain ⟨t, hrun, later⟩ := ih (safeInbox_of_suffix safe (first ▸ List.tail_suffix _))
    exact ⟨t, (run_succ n hstep).trans hrun, by rw [later, first, List.drop_tail]⟩

/-- Settles O15, by induction on the number of steps (`run_next_of_safeInbox`); what is left waiting was waiting before. -/
theorem safeRunsNeverStop : Obligations.SafeRunsNeverStop := by
  unfold Obligations.SafeRunsNeverStop
  intro s safe n
  obtain ⟨t, hrun, inbox⟩ := run_next_of_safeInbox safe n
  exact ⟨t, hrun, inbox, safeInbox_of_suffix safe (inbox ▸ List.drop_suffix _ _)⟩

end Sys2Proof.Safety
end

section
/-! Reset (R250, R251, R252): whichever input brings it, it seeds with 5489, gives no response and takes that one input alone. -/

namespace Sys2Proof.Safety

open Sys2Proof.Machine

/-- Every kind of reset has the one effect: a command in flight and the state before it have no part in it (R250, R252). -/
theorem step_reset {s : State} {x : Input} {rest : List Input} (hin : s.inbox = x :: rest)
    (hx : x = .reset ∨ x = .powerCycle ∨ ∃ w, x = .resetDuring w) :
    step s = .next (({ s with inbox := rest } : State).seeded 5489#32) := by
  refine (stepWith_input Config.hardware hin).trans ?_
  obtain rfl | rfl | ⟨w, rfl⟩ := hx <;> rfl

/-- Settles O8: the reset seeds, and the first accessor behind that seeding responds from the known first draw. -/
theorem resetLeavesTheDefaultSeedState : Obligations.ResetLeavesTheDefaultSeedState := by
  unfold Obligations.ResetLeavesTheDefaultSeedState
  intro s rest hin
  exact ⟨_, step_reset hin (.inl rfl), rfl, rfl, rfl, rfl, exec_accessor_default (i := .nextU32) rfl _⟩

/-- Settles O10: the word in flight has no part in `step_reset`. -/
theorem resetBeatsTheCommandInFlight : Obligations.ResetBeatsTheCommandInFlight := by
  unfold Obligations.ResetBeatsTheCommandInFlight
  intro s w rest hin
  exact ⟨_, step_reset hin (.inr (.inr ⟨w, rfl⟩)), rfl, rfl, rfl, rfl⟩

/-- Settles O11: `step_reset` takes one input off the port, and seeding leaves the others. -/
theorem inputsBehindAResetStay : Obligations.InputsBehindAResetStay := by
  unfold Obligations.InputsBehindAResetStay
  intro s x rest hin hx
  exact ⟨_, step_reset hin hx, State.seeded_inbox _ _⟩

/-- Settles O12: the word is that of SEED 5489, and both steps seed with 5489. -/
theorem resetEqualsSeedDefault : Obligations.ResetEqualsSeedDefault := by
  unfold Obligations.ResetEqualsSeedDefault
  intro s rest
  have word : (0x0000157100000001#64 : Command) = encode (.seed 5489#32) := by decide
  rw [word]
  exact ⟨_, step_reset rfl (.inl rfl), step_encode_seed rfl⟩

end Sys2Proof.Safety
end
